-- ==== Sys2Proof/Word.lean ====
section
/-! DEFINITION. The words of the block: a byte (R8), and memory as plain data (R50). The operations over memory are in
Sys2Proof/Machine/Ops.lean. An address is a `Nat`, on which `a + 1` and `a - 1` are exact (R10); its width is the
parameter `AW` of R7, `Config.addrWidth`: the port carries that many bits (R80), and every address a unit holds stays
below `2 ^ AW` by the invariant (log 1). -/

namespace Sys2Proof

/-- Every stored value is one byte of 8 bits (R8). -/
abbrev Byte := BitVec 8

/-- MEM (R50) as (address, byte) pairs in rising order of address; an unlisted address reads as
`Machine.Memory.unlisted`. -/
abbrev Memory := List Host.Cell

end Sys2Proof
end

