-- ==== Sys2Proof/Config.lean ====
section
/-! DEFINITION. The implementation parameters of R7. A `Config` is plain data held in `State.config`, which no step changes,
so a statement about every state covers every value of every parameter (log 19). -/

namespace Sys2Proof

/-- The two operations that move a queue cursor, an argument of `LAST_HEAD_RULE` (R146). -/
inductive QueueOp where
  | put
  | get
  deriving DecidableEq, Repr

/-- Which `LAST_HEAD_RULE` the block has (R146, D14; log 2). -/
inductive LastHeadRule where
  /-- The spec's default: `Q.end` when the moving cursor wraps, else unchanged. -/
  | endOnWrap
  /-- Any other total function: the free value `Config.lastHeadOther`. -/
  | other
  deriving DecidableEq, Repr

/-- `LB_ZERO_OPERAND` (R206, D20; log 3). -/
inductive LbZeroOperand where
  | terminates
  | pushesZero
  deriving DecidableEq, Repr

/-- `STATE_AFTER_EXEC_ERROR` (R172, D19; log 4). -/
inductive AfterExecError where
  | running
  | executingInstruction
  deriving DecidableEq, Repr

/-- `INTERP_CODE`: the CODE of the four interpreter failures of R226 (D7; log 5). -/
structure InterpCode where
  endOfProgram : Byte
  instructionNotFound : Byte
  stackOverflow : Byte
  stopped : Byte
  deriving DecidableEq, Repr

/-- The parameters of R7. -/
structure Config where
  /-- `AW`, the width in bits of every address (R7, D2; log 1). -/
  addrWidth : Nat
  lastHeadRule : LastHeadRule
  lbZeroOperand : LbZeroOperand
  afterExecError : AfterExecError
  interpCode : InterpCode
  /-- `MEM0`, the contents of MEM at reset (R51, D36; log 6). -/
  mem0 : Memory
  deriving DecidableEq, Repr

/-- The defaults of R7, with `MEM0` all zero. DESIGN CHOICE: log 6 and log 19. -/
def Config.default : Config where
  addrWidth := 16
  lastHeadRule := .endOnWrap
  lbZeroOperand := .terminates
  afterExecError := .executingInstruction
  interpCode := { endOfProgram := 2, instructionNotFound := 3, stackOverflow := 4, stopped := 5 }
  mem0 := []

/-- FREE VALUE (R146, U7; log 2): the new `Q.last_head` under a rule other than the default, from the operation,
whether its cursor wraps, and the registers `start`, `end`, `head`, `tail` and `last_head` before it; its user takes
`AW` bits of it. No body: nothing can be proved of its value. -/
opaque Config.lastHeadOther : QueueOp → Bool → Nat → Nat → Nat → Nat → Nat → Nat

/-- R226: the four values lie in 2..255 and are different. -/
def InterpCode.wf (c : InterpCode) : Bool :=
  [c.endOfProgram, c.instructionNotFound, c.stackOverflow, c.stopped].all (fun v => 2 ≤ v.toNat)
    && decide ([c.endOfProgram, c.instructionNotFound, c.stackOverflow, c.stopped].Nodup)

end Sys2Proof
end

