-- ==== Sys2Proof/Syntax.lean ====
section
/-! DEFINITION. The instructions of the block: one constructor per row of spec/opcode_table.json, the IL byte code
(R70) and the host command port (R82), and the two forms an instruction is encoded in. A constructor carries exactly the
operands R72 and R88 say it uses; a reference bit is `true` for a reference and `false` for null (R83). -/

namespace Sys2Proof

inductive Instr where
  /-- END, byte 0x00: the terminator (R200). -/
  | terminator
  /-- NO, byte 0x08 (R202). -/
  | no
  /-- LB, byte 0x09 and its literal operand; `none` when LB is the last byte of its region and has no operand byte
  (R205; log 15). -/
  | lb (imm8 : Option Byte)
  /-- An undefined opcode byte (R210). -/
  | undefined (op : Byte)
  /-- STACK_INIT (R100): A0, A1, A2. -/
  | stackInit (record : Bool) (regionStart capacityBoundTop regionBottom : Nat)
  /-- STACK_PUSH (R105): D. -/
  | stackPush (record : Bool) (value : Byte)
  /-- STACK_POP (R110). -/
  | stackPop (record : Bool)
  /-- STACK_SIZE (R115). -/
  | stackSize (record : Bool)
  /-- STACK_GET_BOTTOM (R118). -/
  | stackGetBottom (record : Bool)
  /-- STACK_GET_TOP (R119). -/
  | stackGetTop (record : Bool)
  /-- STACK_GET_TOP_SENTINEL (R120). -/
  | stackGetTopSentinel (record : Bool)
  /-- QUEUE_INIT (R130): A0, A1. -/
  | queueInit (record : Bool) (regionStart regionEndInclusive : Nat)
  /-- QUEUE_PUT (R135): D. -/
  | queuePut (record : Bool) (value : Byte)
  /-- QUEUE_GET (R140). -/
  | queueGet (record : Bool)
  /-- QUEUE_GET_START (R150). -/
  | queueGetStart (record : Bool)
  /-- QUEUE_GET_END (R151). -/
  | queueGetEnd (record : Bool)
  /-- QUEUE_GET_HEAD (R152). -/
  | queueGetHead (record : Bool)
  /-- QUEUE_GET_LAST_HEAD (R153). -/
  | queueGetLastHead (record : Bool)
  /-- QUEUE_GET_TAIL (R154). -/
  | queueGetTail (record : Bool)
  /-- INTERP_INIT (R160): REF[0], REF[1], REF[2], A0, A1. -/
  | interpInit (record stackRef queueRef : Bool) (codeStart codeEnd : Nat)
  /-- INTERP_GET_NEXT_BYTECODE (R167). -/
  | interpGetNextBytecode (record : Bool)
  /-- INTERP_EXEC (R170): D. -/
  | interpExec (record : Bool) (opcode : Byte)
  /-- INTERP_RUN (R180). -/
  | interpRun (record : Bool)
  /-- INTERP_GET_STATE (R190). -/
  | interpGetState (record : Bool)
  /-- INTERP_GET_PTR (R191). -/
  | interpGetPtr (record : Bool)
  /-- A reserved CMD value (R84). -/
  | reservedCommand (cmd : BitVec 8)
  deriving DecidableEq, Repr

/-- The inputs of one command on the host command port (R80); `a0`, `a1` and `a2` have `AW` bits each. -/
structure PortInput where
  cmd : BitVec 8
  ref : BitVec 3
  a0 : Nat
  a1 : Nat
  a2 : Nat
  d : Byte
  deriving DecidableEq, Repr

/-- The two encodings of 30_encoding.md: bytes of the byte-code stream (part 1) and a command on the port (part 2). -/
inductive Encoding where
  | bytes (l : List Byte)
  | port (p : PortInput)
  deriving DecidableEq, Repr

end Sys2Proof
end

