-- ==== Sys2Proof/WellFormed.lean ====
section
/-! DEFINITION. Which terms of `Instr` are instructions of the block. The widths of the operands are in the types, but
for the addresses, whose width is the parameter `AW` of R7. -/

namespace Sys2Proof

/-- R76: the byte is none of 0x00, 0x08 and 0x09. -/
def isUndefinedOpcode (op : Byte) : Bool :=
  op ≠ 0x00#8 && op ≠ 0x08#8 && op ≠ 0x09#8

/-- R84: the CMD value is not in the table of R82, read by the fields of R82 (CMD[7:6] the unit, CMD[5:4] zero,
CMD[3:0] the operation). -/
def isReservedCmd (cmd : BitVec 8) : Bool :=
  let unitNo := cmd.extractLsb' 6 2
  let middle := cmd.extractLsb' 4 2
  let op := (cmd.extractLsb' 0 4).toNat
  unitNo = 3 || middle ≠ 0 || (unitNo = 0 && 7 ≤ op) || (unitNo = 1 && 8 ≤ op) || (unitNo = 2 && 6 ≤ op)

/-- A term that stands for an encoding of the block. -/
def Instr.wellFormed : Instr → Bool
  | .undefined op => isUndefinedOpcode op
  | .reservedCommand cmd => isReservedCmd cmd
  | .terminator | .no | .lb _
  | .stackInit _ _ _ _ | .stackPush _ _ | .stackPop _ | .stackSize _
  | .stackGetBottom _ | .stackGetTop _ | .stackGetTopSentinel _
  | .queueInit _ _ _ | .queuePut _ _ | .queueGet _ | .queueGetStart _ | .queueGetEnd _
  | .queueGetHead _ | .queueGetLastHead _ | .queueGetTail _
  | .interpInit _ _ _ _ _ | .interpGetNextBytecode _ | .interpExec _ _ | .interpRun _
  | .interpGetState _ | .interpGetPtr _ => true

/-- The address operands of an instruction. -/
def Instr.addresses : Instr → List Nat
  | .stackInit _ a0 a1 a2 => [a0, a1, a2]
  | .queueInit _ a0 a1 => [a0, a1]
  | .interpInit _ _ _ a0 a1 => [a0, a1]
  | .terminator | .no | .lb _ | .undefined _
  | .stackPush _ _ | .stackPop _ | .stackSize _
  | .stackGetBottom _ | .stackGetTop _ | .stackGetTopSentinel _
  | .queuePut _ _ | .queueGet _ | .queueGetStart _ | .queueGetEnd _
  | .queueGetHead _ | .queueGetLastHead _ | .queueGetTail _
  | .interpGetNextBytecode _ | .interpExec _ _ | .interpRun _
  | .interpGetState _ | .interpGetPtr _ | .reservedCommand _ => []

/-- Every address operand has `aw` bits (R10, R80). -/
def Instr.fits (aw : Nat) (i : Instr) : Bool := i.addresses.all (fun a => a < 2 ^ aw)

/-- Every address input of a port transaction has `aw` bits (R80). -/
def PortInput.fits (aw : Nat) (p : PortInput) : Bool := p.a0 < 2 ^ aw && p.a1 < 2 ^ aw && p.a2 < 2 ^ aw

end Sys2Proof
end

