-- ==== Sys2Proof/Decode.lean ====
section
/-! DEFINITION. Decoding, total on any bytes and on any port inputs, and after it the encoder. Part 1 of 30_encoding.md
(R70 to R75) is the byte code, part 2 (R80 to R88) the command port. -/

namespace Sys2Proof

/-- Why bytes decode to no instruction: there is no byte, which is the end of the byte code (R75). -/
inductive DecodeError where
  | noByte
  deriving DecidableEq, Repr

/-- The IL instruction at the head of the bytes that remain of the byte-code region, and the bytes after it. Its first
byte alone selects it and tells its length (R71, R72, R74); LB takes the next byte as its literal exactly as stored
(R73), if there is one (R205). -/
def decodeIL : List Byte → Except DecodeError (Instr × List Byte)
  | [] => .error .noByte
  | op :: rest =>
    if op = 0x00#8 then .ok (.terminator, rest)
    else if op = 0x08#8 then .ok (.no, rest)
    else if op = 0x09#8 then .ok (.lb rest.head?, rest.tail)
    else .ok (.undefined op, rest)

/-- `REF[i]` as a reference bit (R83). -/
def PortInput.refBit (p : PortInput) (i : Nat) : Bool := p.ref.getLsbD i

/-- The command of one port transaction: the CMD values of R82 with the argument use of R88; every other CMD value is
a reserved command (R84). -/
def decodePort (p : PortInput) : Instr :=
  match p.cmd.toNat with
  | 0x00 => .stackInit (p.refBit 0) p.a0 p.a1 p.a2
  | 0x01 => .stackPush (p.refBit 0) p.d
  | 0x02 => .stackPop (p.refBit 0)
  | 0x03 => .stackSize (p.refBit 0)
  | 0x04 => .stackGetBottom (p.refBit 0)
  | 0x05 => .stackGetTop (p.refBit 0)
  | 0x06 => .stackGetTopSentinel (p.refBit 0)
  | 0x40 => .queueInit (p.refBit 0) p.a0 p.a1
  | 0x41 => .queuePut (p.refBit 0) p.d
  | 0x42 => .queueGet (p.refBit 0)
  | 0x43 => .queueGetStart (p.refBit 0)
  | 0x44 => .queueGetEnd (p.refBit 0)
  | 0x45 => .queueGetHead (p.refBit 0)
  | 0x46 => .queueGetLastHead (p.refBit 0)
  | 0x47 => .queueGetTail (p.refBit 0)
  | 0x80 => .interpInit (p.refBit 0) (p.refBit 1) (p.refBit 2) p.a0 p.a1
  | 0x81 => .interpGetNextBytecode (p.refBit 0)
  | 0x82 => .interpExec (p.refBit 0) p.d
  | 0x83 => .interpRun (p.refBit 0)
  | 0x84 => .interpGetState (p.refBit 0)
  | 0x85 => .interpGetPtr (p.refBit 0)
  | _ => .reservedCommand p.cmd

/-- An address as `aw` lines carry it (R80, R81). -/
def narrowAddr (aw : Nat) (a : Nat) : Nat := a % 2 ^ aw

/-- The inputs as a port with `AW` = `aw` carries them: `aw` bits of each address (R80). -/
def PortInput.narrow (aw : Nat) (p : PortInput) : PortInput :=
  { p with a0 := narrowAddr aw p.a0, a1 := narrowAddr aw p.a1, a2 := narrowAddr aw p.a2 }

/-- The instruction that a block with `AW` = `aw` takes from a transaction. -/
def decodeCommand (aw : Nat) (p : PortInput) : Instr := decodePort (p.narrow aw)

/-- The instruction an encoding stands for; bytes after the first instruction are not looked at. -/
def decode : Encoding → Except DecodeError Instr
  | .bytes l =>
    match decodeIL l with
    | .ok (i, _) => .ok i
    | .error e => .error e
  | .port p => .ok (decodePort p)

/-- The REF input of a command that uses `REF[0]` only (R83, R88). -/
def recordRef (record : Bool) : BitVec 3 := if record then 0b001 else 0b000

/-- The REF input of INTERP_INIT (R83): record, STACK and QUEUE references. -/
def interpRef (record stackRef queueRef : Bool) : BitVec 3 :=
  BitVec.ofBool queueRef ++ BitVec.ofBool stackRef ++ BitVec.ofBool record

/-- A port transaction with every input the command does not use at 0. -/
def portWord (cmd : BitVec 8) (ref : BitVec 3) (a0 a1 a2 : Nat := 0) (d : Byte := 0) : Encoding :=
  .port { cmd, ref, a0, a1, a2, d }

/-- The encoding of an instruction: its bytes (R70 to R72) or its port inputs (R82, R83, R88). -/
def encode : Instr → Encoding
  | .terminator => .bytes [0x00#8]
  | .no => .bytes [0x08#8]
  | .lb none => .bytes [0x09#8]
  | .lb (some imm8) => .bytes [0x09#8, imm8]
  | .undefined op => .bytes [op]
  | .stackInit r a0 a1 a2 => portWord 0x00#8 (recordRef r) a0 a1 a2
  | .stackPush r d => portWord 0x01#8 (recordRef r) 0 0 0 d
  | .stackPop r => portWord 0x02#8 (recordRef r)
  | .stackSize r => portWord 0x03#8 (recordRef r)
  | .stackGetBottom r => portWord 0x04#8 (recordRef r)
  | .stackGetTop r => portWord 0x05#8 (recordRef r)
  | .stackGetTopSentinel r => portWord 0x06#8 (recordRef r)
  | .queueInit r a0 a1 => portWord 0x40#8 (recordRef r) a0 a1
  | .queuePut r d => portWord 0x41#8 (recordRef r) 0 0 0 d
  | .queueGet r => portWord 0x42#8 (recordRef r)
  | .queueGetStart r => portWord 0x43#8 (recordRef r)
  | .queueGetEnd r => portWord 0x44#8 (recordRef r)
  | .queueGetHead r => portWord 0x45#8 (recordRef r)
  | .queueGetLastHead r => portWord 0x46#8 (recordRef r)
  | .queueGetTail r => portWord 0x47#8 (recordRef r)
  | .interpInit r sr qr a0 a1 => portWord 0x80#8 (interpRef r sr qr) a0 a1
  | .interpGetNextBytecode r => portWord 0x81#8 (recordRef r)
  | .interpExec r d => portWord 0x82#8 (recordRef r) 0 0 0 d
  | .interpRun r => portWord 0x83#8 (recordRef r)
  | .interpGetState r => portWord 0x84#8 (recordRef r)
  | .interpGetPtr r => portWord 0x85#8 (recordRef r)
  | .reservedCommand cmd => portWord cmd 0

/-! ### Words of the opcode table -/

/-- The port inputs packed in the order of R80's table, CMD lowest: CMD 8, REF 3, A0, A1, A2 `aw` each and D 8 bits.
DESIGN CHOICE: the spec gives the fields and no bit order of the whole (log 14). -/
def PortInput.ofWord (aw w : Nat) : PortInput where
  cmd := BitVec.ofNat 8 w
  ref := BitVec.ofNat 3 (w >>> 8)
  a0 := narrowAddr aw (w >>> 11)
  a1 := narrowAddr aw (w >>> (11 + aw))
  a2 := narrowAddr aw (w >>> (11 + 2 * aw))
  d := BitVec.ofNat 8 (w >>> (11 + 3 * aw))

/-- Which of the two encodings a word of the opcode table is read in. The table gives a byte-code byte and a CMD byte
the same 8 bits, so the word alone does not say which it is. DESIGN CHOICE (log 13): a word of 9 to 16 bits is two bytes
of byte code; a wider word is a port transaction; a word of at most 8 bits is a port transaction when its byte is a CMD
value that R82 defines, and byte code otherwise. The addresses of a
port word have the default `AW`. -/
def tableEncoding (nbits w : Nat) : Encoding :=
  let asBytes := Encoding.bytes [BitVec.ofNat 8 w, BitVec.ofNat 8 (w >>> 8)]
  let asPort := Encoding.port (PortInput.ofWord Config.default.addrWidth w)
  if 16 < nbits then asPort
  else if 8 < nbits then asBytes
  else if isReservedCmd (BitVec.ofNat 8 w) then asBytes
  else asPort

/-- The instruction the decoder reads from a word of the opcode table, bits above `nbits` zero. -/
def decodeTableWord (nbits w : Nat) : Option Instr :=
  match decode (tableEncoding nbits (w % 2 ^ nbits)) with
  | .ok i => some i
  | .error _ => none

end Sys2Proof
end

