-- ==== Sys2Proof/Machine/State.lean ====
section
/-! DEFINITION. The state of the block (10_state.md R20 to R47), the reasons a step stops, and the state after reset.
The fields `config`, `runActive`, `pending` and `responses` are the model's own (log 19, 9, 10 and 11); every other
field is the spec's. -/

namespace Sys2Proof.Machine

/-- The units of R1 that have a valid bit (R21). -/
inductive UnitName where
  | stack
  | queue
  | interp
  deriving DecidableEq, Repr

/-- The values of `I.state` (R31). -/
inductive IState where
  | running
  | stopped
  | executingInstruction
  deriving DecidableEq, Repr

/-- The typed outcome of a command (R87). `unknown` is in the taxonomy of R220 and never produced (R225). -/
inductive Kind where
  | ok
  | nullPointer
  | invalidArguments
  | stackOverflow
  | stackUnderflow
  | queueFull
  | queueEmpty
  | instructionNotFound
  | endOfProgram
  | stopped
  | unknown
  deriving DecidableEq, Repr

/-- The registers of STACK and its valid bit (R21, R22); an address register holds `AW` bits (`WidthInv`; log 1). -/
structure StackRegs where
  data : Nat
  bottom : Nat
  topSentinel : Nat
  top : Nat
  valid : Bool
  deriving DecidableEq, Repr

/-- The registers of QUEUE and its valid bit (R21, R27), of `AW` bits each; `stop` is `Q.end`. -/
structure QueueRegs where
  start : Nat
  stop : Nat
  head : Nat
  tail : Nat
  lastHead : Nat
  valid : Bool
  deriving DecidableEq, Repr

/-- The registers of INTERP and its valid bit (R21, R31, R33); an address register holds `AW` bits. -/
structure InterpRegs where
  byteCode : Nat
  byteCodeEnd : Nat
  byteCodePtr : Nat
  state : IState
  valid : Bool
  deriving DecidableEq, Repr

/-- The outputs of one completed command (R86). RDATA and RADDR hold no value (`none`) where R86 says that the
field holds none. -/
structure Response where
  kind : Kind
  code : Byte
  rdata : Option Byte
  raddr : Option Nat
  deriving DecidableEq, Repr

/-- What the host does to the block between commands: a command on the port (R80), a write of a MEM byte (R51, R256),
the reset input (R250). -/
inductive HostInput where
  | command (p : PortInput)
  | poke (a : Nat) (v : Byte)
  | reset
  deriving DecidableEq, Repr

/-- The whole state of the block. -/
structure State where
  stack : StackRegs
  queue : QueueRegs
  interp : InterpRegs
  mem : Memory
  /-- The parameters of R7, fixed (log 19). -/
  config : Config
  /-- An INTERP_RUN is in progress (R257, R258; log 9). -/
  runActive : Bool
  /-- The host's inputs still to come, oldest first (log 10). -/
  pending : List HostInput
  /-- The responses given so far, newest first (log 11). -/
  responses : List Response
  deriving DecidableEq, Repr

/-- The model faults of R229. -/
inductive Fault where
  /-- A command other than init of a unit whose valid bit is 0, raised by that command; or an LB that reaches its push
  while `S.valid` is 0, raised by LB (in INTERP_RUN and in INTERP_EXEC), with the STACK as the unit. Safe: the model
  stops where the real block might go on (R229). -/
  | uninitialized (u : UnitName)
  deriving DecidableEq, Repr

/-- The refusals. -/
inductive Refusal where
  /-- An instruction whose arm has no meaning yet, raised by exec. Safe. -/
  | notModelled (mnemonic : String)
  /-- A reserved CMD value (R84, R230), raised by its arm: it has no meaning, changes no state and gives no response.
  Safe. -/
  | reservedCmd (cmd : BitVec 8)
  deriving DecidableEq, Repr

/-- STACK after reset: invalid (R46); the registers R46 leaves unspecified are 0. DESIGN CHOICE: log 7. -/
def StackRegs.reset : StackRegs where
  data := 0
  bottom := 0
  topSentinel := 0
  top := 0
  valid := false

/-- QUEUE after reset: invalid (R46); the registers R46 leaves unspecified are 0. DESIGN CHOICE: log 7. -/
def QueueRegs.reset : QueueRegs where
  start := 0
  stop := 0
  head := 0
  tail := 0
  lastHead := 0
  valid := false

/-- INTERP after reset: invalid (R46); the registers R46 leaves unspecified are 0 and the state is Stopped.
DESIGN CHOICE: log 7 and log 8 (R46: `I.state` is not Running until INTERP_INIT). -/
def InterpRegs.reset : InterpRegs where
  byteCode := 0
  byteCodeEnd := 0
  byteCodePtr := 0
  state := .stopped
  valid := false

/-- The state after reset of a block with the parameters `c`: R46, with MEM equal to `MEM0`. -/
def State.resetOf (c : Config) : State where
  stack := StackRegs.reset
  queue := QueueRegs.reset
  interp := InterpRegs.reset
  mem := c.mem0
  config := c
  runActive := false
  pending := []
  responses := []

/-- The state after reset with the default parameters and `MEM0` all zero (log 6). -/
def State.reset : State := State.resetOf Config.default

end Sys2Proof.Machine
end

