-- ==== Sys2Proof/Machine/Flags.lean ====
section
/-! DEFINITION. The block has no flags (R44). What reports an outcome is KIND and CODE on the response port and
`I.state`: their encodings and the computation of CODE are here. -/

namespace Sys2Proof.Machine

/-- The 4-bit KIND of R87. -/
def Kind.bits : Kind → BitVec 4
  | .ok => 0
  | .nullPointer => 1
  | .invalidArguments => 2
  | .stackOverflow => 3
  | .stackUnderflow => 4
  | .queueFull => 5
  | .queueEmpty => 6
  | .instructionNotFound => 7
  | .endOfProgram => 8
  | .stopped => 9
  | .unknown => 15

/-- The 2-bit encoding of `I.state` (R31). -/
def IState.bits : IState → BitVec 2
  | .running => 0
  | .stopped => 1
  | .executingInstruction => 2

/-- The CODE of the STACK and QUEUE commands, of INTERP_INIT and of the INTERP accessors (R224): 0 success, 1 null
pointer, 2 the command's domain-specific failure. -/
def unitCode : Kind → Byte
  | .ok => 0
  | .nullPointer => 1
  | _ => 2

/-- The CODE of INTERP_GET_NEXT_BYTECODE, INTERP_EXEC and INTERP_RUN (R224, R226): `INTERP_CODE` for the four kinds R226
names. -/
def interpCode (c : InterpCode) : Kind → Byte
  | .endOfProgram => c.endOfProgram
  | .instructionNotFound => c.instructionNotFound
  | .stackOverflow => c.stackOverflow
  | .stopped => c.stopped
  | k => unitCode k

/-- The failure of its own that an instruction reports with CODE 2 (R224); `none` for an instruction that has none, and
for those whose failures have the CODE of R226. -/
def domainFailure : Instr → Option Kind
  | .stackInit _ _ _ _ => some .invalidArguments
  | .stackPush _ _ => some .stackOverflow
  | .stackPop _ => some .stackUnderflow
  | .queueInit _ _ _ => some .invalidArguments
  | .queuePut _ _ => some .queueFull
  | .queueGet _ => some .queueEmpty
  | .interpInit _ _ _ _ _ => some .invalidArguments
  | .terminator | .no | .lb _ | .undefined _
  | .stackSize _ | .stackGetBottom _ | .stackGetTop _ | .stackGetTopSentinel _
  | .queueGetStart _ | .queueGetEnd _ | .queueGetHead _ | .queueGetLastHead _ | .queueGetTail _
  | .interpGetNextBytecode _ | .interpExec _ _ | .interpRun _ | .interpGetState _ | .interpGetPtr _
  | .reservedCommand _ => none

/-- The failures have the CODE of R226: INTERP_GET_NEXT_BYTECODE, INTERP_EXEC, INTERP_RUN, and the IL instructions, which
complete an INTERP_RUN. -/
def failsByInterpCode : Instr → Bool
  | .terminator | .no | .lb _ | .undefined _ | .interpGetNextBytecode _ | .interpExec _ _ | .interpRun _ => true
  | .stackInit _ _ _ _ | .stackPush _ _ | .stackPop _ | .stackSize _
  | .stackGetBottom _ | .stackGetTop _ | .stackGetTopSentinel _
  | .queueInit _ _ _ | .queuePut _ _ | .queueGet _ | .queueGetStart _ | .queueGetEnd _
  | .queueGetHead _ | .queueGetLastHead _ | .queueGetTail _
  | .interpInit _ _ _ _ _ | .interpGetState _ | .interpGetPtr _ | .reservedCommand _ => false

/-- The kind a host assigns when it decodes the CODE of an instruction's response (R224 to R226): `unknown` for a CODE
that is not in the instruction's mapping. -/
def hostKind (c : InterpCode) (i : Instr) (code : Byte) : Kind :=
  if code = 0#8 then .ok
  else if code = 1#8 then .nullPointer
  else if failsByInterpCode i then
    if code = c.endOfProgram then .endOfProgram
    else if code = c.instructionNotFound then .instructionNotFound
    else if code = c.stackOverflow then .stackOverflow
    else if code = c.stopped then .stopped
    else .unknown
  else if code = 2#8 then (domainFailure i).getD .unknown
  else .unknown

/-- `STATE_AFTER_EXEC_ERROR` as a value of `I.state` (R172). -/
def afterExecErrorState : AfterExecError → IState
  | .running => .running
  | .executingInstruction => .executingInstruction

end Sys2Proof.Machine
end

