-- ==== Sys2Proof/Machine/Ops.lean ====
section
/-! DEFINITION. The operations every meaning is built from: memory (20_memory.md), the writes of single registers, the
completion of a command (R12), the checks every command begins with (R227), and the host's inputs that are no
commands. -/

namespace Sys2Proof.Machine

/-! ### Memory -/

/-- What an address that memory does not list reads as; a list of the other bytes then gives any contents `MEM0` may
have. DESIGN CHOICE: log 6. -/
def Memory.unlisted : Byte := 0

/-- The byte at an address (R50). -/
def Memory.read : Memory → Nat → Byte
  | [], _ => Memory.unlisted
  | (k, v) :: m, a => if k = a then v else Memory.read m a

/-- `m` with the cell `(a, v)` put before it, left out where it says what an unlisted address says. -/
def Memory.cons (a : Nat) (v : Byte) (m : Memory) : Memory :=
  if v = Memory.unlisted then m else (a, v) :: m

/-- Memory with one byte replaced, in canonical form again. -/
def Memory.write : Memory → Nat → Byte → Memory
  | [], a, v => Memory.cons a v []
  | (k, u) :: m, a, v =>
    if a < k then Memory.cons a v ((k, u) :: m)
    else if a = k then Memory.cons a v m
    else (k, u) :: Memory.write m a v

/-- The canonical form of a memory whose addresses are at least `lo`: rising addresses below `2 ^ aw`, and no cell
that says what an unlisted address says. -/
def Memory.wfFrom (aw lo : Nat) : Memory → Bool
  | [] => true
  | (k, v) :: m => decide (lo ≤ k) && decide (k < 2 ^ aw) && decide (v ≠ Memory.unlisted) && Memory.wfFrom aw (k + 1) m

/-- The canonical form of a memory of `2 ^ aw` bytes (R50): equal memories are equal lists. -/
def Memory.wf (aw : Nat) (m : Memory) : Bool := Memory.wfFrom aw 0 m

/-- `MemRead(a, 1)` (R11, R62). -/
def memRead (s : State) (a : Nat) : Byte := Memory.read s.mem a

/-- `MemWrite(a, 1, v)` (R11, R62). -/
def memWrite (a : Nat) (v : Byte) (s : State) : State :=
  { s with mem := Memory.write s.mem a v }

/-! ### Writes of one register -/

/-- `S.top <- a`. -/
def setTop (a : Nat) (s : State) : State :=
  { s with stack := { s.stack with top := a } }

/-- `I.state <- x`. -/
def setIState (x : IState) (s : State) : State :=
  { s with interp := { s.interp with state := x } }

/-- `I.byte_code_ptr <- a`. -/
def setCursor (a : Nat) (s : State) : State :=
  { s with interp := { s.interp with byteCodePtr := a } }

/-! ### Completion of a command -/

/-- The command gives its response (R86). -/
def respond (r : Response) (s : State) : State :=
  { s with responses := r :: s.responses }

/-- What a meaning answers. -/
abbrev Result := Host.Outcome State Fault Refusal

/-- `return OK` with no value (R12). -/
def returnOk (s : State) : Result :=
  .next (respond { kind := .ok, code := unitCode .ok, rdata := none, raddr := none } s)

/-- `return OK(RDATA = v)` (R12). -/
def returnByte (v : Byte) (s : State) : Result :=
  .next (respond { kind := .ok, code := unitCode .ok, rdata := some v, raddr := none } s)

/-- `return OK(RADDR = a)` (R12). -/
def returnAddr (a : Nat) (s : State) : Result :=
  .next (respond { kind := .ok, code := unitCode .ok, rdata := none, raddr := some a } s)

/-- `raise k`: the block's only exception mechanism (R12, R232). The command ends with the KIND `k` and the CODE given;
no register and no memory byte changes, nothing is saved and no handler is entered (R222, R232). Recovery is the host's
next command (R233). -/
def raise (code : Byte) (k : Kind) (s : State) : Result :=
  .next (respond { kind := k, code := code, rdata := none, raddr := none } s)

/-- `raise k` in a command whose CODE is the fixed mapping of R224. -/
def raiseUnit (k : Kind) (s : State) : Result := raise (unitCode k) k s

/-- `raise k` in INTERP_GET_NEXT_BYTECODE, INTERP_EXEC and INTERP_RUN, whose CODE is that of R226. -/
def raiseInterp (k : Kind) (s : State) : Result := raise (interpCode s.config.interpCode k) k s

/-- The checks of R227, steps 2 and 3, before the body of a command other than init: the record reference, then the valid
bit of the unit. -/
def checked (record valid : Bool) (u : UnitName) (body : State → Result) (s : State) : Result :=
  if record = false then raiseUnit .nullPointer s
  else if valid = false then .fault (.uninitialized u)
  else body s

/-- A command of STACK other than STACK_INIT. -/
def stackCommand (record : Bool) (body : State → Result) (s : State) : Result :=
  checked record s.stack.valid .stack body s

/-- A command of QUEUE other than QUEUE_INIT. -/
def queueCommand (record : Bool) (body : State → Result) (s : State) : Result :=
  checked record s.queue.valid .queue body s

/-- A command of INTERP other than INTERP_INIT. -/
def interpCommand (record : Bool) (body : State → Result) (s : State) : Result :=
  checked record s.interp.valid .interp body s

/-- A command of INTERP that fetches or executes: in the state Stopped it fails (R227 step 4; R166, R171, R181). -/
def activeCommand (record : Bool) (body : State → Result) (s : State) : Result :=
  interpCommand record (fun s => if s.interp.state = .stopped then raiseInterp .stopped s else body s) s

/-! ### Inputs of the host that are no commands -/

/-- The reset input, between commands (R250): every register as R46 says and MEM equal to `MEM0`. The inputs still
to come and the responses given stay (log 20). -/
def hostReset (s : State) : State :=
  { State.resetOf s.config with pending := s.pending, responses := s.responses }

/-- The host writes a MEM byte (R51, R256), at an address of `AW` bits (log 10). -/
def hostPoke (a : Nat) (v : Byte) (s : State) : State := memWrite (narrowAddr s.config.addrWidth a) v s

end Sys2Proof.Machine
end

