-- ==== Sys2Proof/Machine/Operands.lean ====
section
/-! DEFINITION. The operands: the null test and the queue cursor's successor (R13), the free-standing rules that compute
an operand, and the byte-code fetch that gives an opcode or the literal of LB (R165, R206). -/

namespace Sys2Proof.Machine

/-- `isNull(a)` (R13). -/
def isNull (a : Nat) : Bool := a = 0

/-- `nextQ(a)` (R13): the cursor's successor with wraparound. -/
def nextQ (q : QueueRegs) (a : Nat) : Nat := if a = q.stop then q.start else a + 1

/-- `LAST_HEAD_RULE(op, wrapped, Q)` (R146), from the registers before the operation; an address of `AW` bits. -/
def lastHeadAfter (c : Config) (op : QueueOp) (wrapped : Bool) (q : QueueRegs) : Nat :=
  match c.lastHeadRule with
  | .endOnWrap => if wrapped then q.stop else q.lastHead
  | .other => narrowAddr c.addrWidth (Config.lastHeadOther op wrapped q.start q.stop q.head q.tail q.lastHead)

/-- `I.state <- Stopped`, the end of the program (R165). -/
def stopInterp (s : State) : State := setIState .stopped s

/-- `I.byte_code_ptr <- I.byte_code_ptr + 1`. -/
def advance (s : State) : State := setCursor (s.interp.byteCodePtr + 1) s

/-- The byte at the fetch cursor; `none` at physical exhaustion, where MEM is not read (R165). -/
def byteAtCursor (s : State) : Option Byte :=
  if s.interp.byteCodePtr = s.interp.byteCodeEnd then none
  else some (memRead s s.interp.byteCodePtr)

/-- The rest of a fetch, once the byte at the cursor is known (R165): at exhaustion, and at the terminator where
`zeroEnds`, the state becomes Stopped and the cursor stays; else the cursor advances and the byte is the answer. -/
def takeByte (zeroEnds : Bool) (b : Option Byte) (s : State) : Option Byte × State :=
  match b with
  | none => (none, stopInterp s)
  | some v => if v = 0x00#8 ∧ zeroEnds = true then (none, stopInterp s) else (some v, advance s)

/-- `FetchCore()` (R165); `none` is `EndOfProgram`. -/
def fetchCore (s : State) : Option Byte × State := takeByte true (byteAtCursor s) s

/-- The operand read of LB (R205, R206), from the operand byte in the byte-code stream: `FetchCore` under
`Terminates`, the read without the terminator test under `PushesZero`. -/
def lbOperand (imm8 : Option Byte) (s : State) : Option Byte × State :=
  takeByte (s.config.lbZeroOperand = .terminates) imm8 s

/-- The bytes that the decoder sees at the fetch cursor: from the cursor to the end of the region, at most the two an
instruction has (R72, R74, R75). -/
def bytesAtCursor (s : State) : List Byte :=
  match byteAtCursor s with
  | none => []
  | some b => b :: (byteAtCursor (advance s)).toList

/-- The opcode fetch of INTERP_RUN (R165): the instruction at the cursor, and the state in which it executes, with the
cursor past the opcode byte (R38) or left on the terminator; `none` at exhaustion. -/
def fetchInstr (s : State) : Option (Instr × State) :=
  match decodeIL (bytesAtCursor s) with
  | .error _ => none
  | .ok (.terminator, _) => some (.terminator, s)
  | .ok (i, _) => some (i, advance s)

/-- Where byte code is placed from outside the machine: at the cursor if two bytes and an end address fit there
(R178), else at address 0. -/
def placementAddr (s : State) : Nat :=
  if s.interp.byteCodePtr + 2 < 2 ^ s.config.addrWidth then s.interp.byteCodePtr else 0

/-- Byte code placed at the cursor from outside the machine, as the host does before INTERP_INIT (R51, R252), with an
INTERP_RUN of it in progress. The region keeps its bounds where they already hold the bytes. -/
def placeByteCode (l : List Byte) (s : State) : State :=
  let a := placementAddr s
  let t := memWrite (a + 1) (l.getD 1 0) (memWrite a (l.getD 0 0) s)
  { t with
    runActive := true
    interp :=
      { byteCode := if s.interp.byteCode ≤ a then s.interp.byteCode else a
        byteCodeEnd := if a + 2 ≤ s.interp.byteCodeEnd then s.interp.byteCodeEnd else a + 2
        byteCodePtr := a
        state := if s.interp.state = .stopped then .running else s.interp.state
        valid := true } }

end Sys2Proof.Machine
end

