-- ==== Sys2Proof/Machine/Stack.lean ====
section
/-! DEFINITION. The STACK commands (40_stack.md) and the push they share with LB. -/

namespace Sys2Proof.Machine

/-- `StackPushCore(v)` (R104): the kind it ends with and the state it leaves. -/
def stackPushCore (v : Byte) (s : State) : Kind × State :=
  if s.stack.top = s.stack.topSentinel then (.stackOverflow, s)
  else (.ok, setTop (s.stack.top + 1) (memWrite s.stack.top v s))

/-- STACK_INIT (R100). -/
def execStackInit (record : Bool) (a0 a1 a2 : Nat) (s : State) : Result :=
  if record = false ∨ isNull a0 ∨ isNull a1 ∨ isNull a2 then raiseUnit .nullPointer s
  else if a1 ≤ a2 then raiseUnit .invalidArguments s
  else returnOk { s with stack := { data := a0, bottom := a2, topSentinel := a1, top := a2, valid := true } }

/-- STACK_PUSH after its checks (R105). -/
def stackPushBody (value : Byte) (s : State) : Result :=
  match stackPushCore value s with
  | (.ok, t) => returnOk t
  | (k, t) => raiseUnit k t

/-- STACK_PUSH (R105). -/
def execStackPush (record : Bool) (value : Byte) (s : State) : Result :=
  stackCommand record (stackPushBody value) s

/-- STACK_POP after its checks (R110): the cursor moves first, then the byte at the new top is read. -/
def stackPopBody (s : State) : Result :=
  if s.stack.top = s.stack.bottom then raiseUnit .stackUnderflow s
  else
    let t := setTop (s.stack.top - 1) s
    returnByte (memRead t t.stack.top) t

/-- STACK_POP (R110). -/
def execStackPop (record : Bool) (s : State) : Result :=
  stackCommand record stackPopBody s

/-- STACK_SIZE (R115): the capacity. -/
def execStackSize (record : Bool) (s : State) : Result :=
  stackCommand record (fun s => returnAddr (s.stack.topSentinel - s.stack.bottom) s) s

/-- STACK_GET_BOTTOM (R118). -/
def execStackGetBottom (record : Bool) (s : State) : Result :=
  stackCommand record (fun s => returnAddr s.stack.bottom s) s

/-- STACK_GET_TOP (R119). -/
def execStackGetTop (record : Bool) (s : State) : Result :=
  stackCommand record (fun s => returnAddr s.stack.top s) s

/-- STACK_GET_TOP_SENTINEL (R120). -/
def execStackGetTopSentinel (record : Bool) (s : State) : Result :=
  stackCommand record (fun s => returnAddr s.stack.topSentinel s) s

end Sys2Proof.Machine
end

