-- ==== Sys2Proof/Machine/Il.lean ====
section
/-! DEFINITION. The IL instructions (43_il_opcodes.md) and the body of exec that runs them (R169), as INTERP_RUN executes
them: each arm ends with what the loop of R180 does with the instruction's result. -/

namespace Sys2Proof.Machine

/-- What the body of an instruction gives: a model fault, or the kind it ends with and the state it leaves. -/
abbrev BodyResult := Except Fault (Kind × State)

/-- The body of NO (R202). -/
def noBody (s : State) : BodyResult := .ok (.ok, s)

/-- `LB()` (R205, R206), `imm8` the operand byte at the cursor. -/
def lbBody (imm8 : Option Byte) (s : State) : BodyResult :=
  match lbOperand imm8 s with
  | (none, t) => .ok (.endOfProgram, t)
  | (some v, t) =>
    if t.stack.valid = false then .error (.uninitialized .stack)
    else .ok (stackPushCore v t)

/-- The body of an undefined opcode (R210). -/
def undefinedBody (s : State) : BodyResult := .ok (.instructionNotFound, s)

/-- `Dispatch(op)` (R209): the whole opcode byte selects the body; the literal of LB is the byte at the cursor. -/
def dispatchBody (op : Byte) (s : State) : BodyResult :=
  if op = 0x08#8 then noBody s
  else if op = 0x09#8 then lbBody (byteAtCursor s) s
  else undefinedBody s

/-- `ExecCore` (R169, R172) around the body that the dispatch selects. -/
def execCore (body : State → BodyResult) (s : State) : BodyResult :=
  match body (setIState .executingInstruction s) with
  | .error f => .error f
  | .ok (.ok, t) => .ok (.ok, setIState .running t)
  | .ok (.endOfProgram, t) => .ok (.endOfProgram, t)
  | .ok (k, t) => .ok (k, setIState (afterExecErrorState t.config.afterExecError) t)

/-- INTERP_RUN completes (R180): with OK at the end of the program, with the failing kind else. -/
def endRun (k : Kind) (s : State) : State :=
  respond { kind := k, code := interpCode s.config.interpCode k, rdata := none, raddr := none }
    { s with runActive := false }

/-- What the loop of R180 does with the result of `ExecCore`: it goes on after OK, completes with OK at
`EndOfProgram` (R184), and completes with the failing kind else. -/
def continueRun : BodyResult → Result
  | .error f => .fault f
  | .ok (.ok, t) => .next t
  | .ok (.endOfProgram, t) => .next (endRun .ok t)
  | .ok (k, t) => .next (endRun k t)

/-- The loop of R180 finds physical exhaustion at its opcode fetch (R165, R183). -/
def exhaustRun (s : State) : Result := .next (endRun .ok (stopInterp s))

/-- END (R200): the opcode fetch finds the terminator. -/
def execTerminator (s : State) : Result := .next (endRun .ok (stopInterp s))

/-- NO (R202). -/
def execNo (s : State) : Result := continueRun (execCore noBody s)

/-- LB (R205, R206). -/
def execLb (imm8 : Option Byte) (s : State) : Result := continueRun (execCore (lbBody imm8) s)

/-- An undefined opcode (R210): it fails whatever its byte is. -/
def execUndefined (_op : Byte) (s : State) : Result := continueRun (execCore undefinedBody s)

end Sys2Proof.Machine
end

