-- ==== Sys2Proof/Machine/Interp.lean ====
section
/-! DEFINITION. The INTERP commands (42_interpreter.md). -/

namespace Sys2Proof.Machine

/-- INTERP_INIT (R160). -/
def execInterpInit (record stackRef queueRef : Bool) (a0 a1 : Nat) (s : State) : Result :=
  if record = false ∨ stackRef = false ∨ queueRef = false then raiseUnit .nullPointer s
  else if a1 ≤ a0 then raiseUnit .invalidArguments s
  else returnOk { s with
    interp := { byteCode := a0, byteCodeEnd := a1, byteCodePtr := a0, state := .running, valid := true } }

/-- INTERP_GET_NEXT_BYTECODE after its checks (R167). -/
def getNextBytecodeBody (s : State) : Result :=
  match fetchCore s with
  | (none, t) => raiseInterp .endOfProgram t
  | (some b, t) => returnByte b t

/-- INTERP_GET_NEXT_BYTECODE (R167). -/
def execInterpGetNextBytecode (record : Bool) (s : State) : Result :=
  activeCommand record getNextBytecodeBody s

/-- INTERP_EXEC after its checks (R170). -/
def interpExecBody (opcode : Byte) (s : State) : Result :=
  match execCore (dispatchBody opcode) s with
  | .error f => .fault f
  | .ok (.ok, t) => returnOk t
  | .ok (k, t) => raiseInterp k t

/-- INTERP_EXEC (R170). -/
def execInterpExec (record : Bool) (opcode : Byte) (s : State) : Result :=
  activeCommand record (interpExecBody opcode) s

/-- INTERP_RUN (R180): after its checks the loop is in progress; the steps that follow are its iterations
(R258; log 9), and `endRun` completes the command. -/
def execInterpRun (record : Bool) (s : State) : Result :=
  activeCommand record (fun s => .next { s with runActive := true }) s

/-- INTERP_GET_STATE (R190). -/
def execInterpGetState (record : Bool) (s : State) : Result :=
  interpCommand record (fun s => returnByte (s.interp.state.bits.setWidth 8) s) s

/-- INTERP_GET_PTR (R191). -/
def execInterpGetPtr (record : Bool) (s : State) : Result :=
  interpCommand record (fun s => returnAddr s.interp.byteCodePtr s) s

/-- A reserved CMD value (R84, R230): refused, with no response and no change of state. -/
def execReservedCommand (cmd : BitVec 8) (_s : State) : Result := .refused (.reservedCmd cmd)

/-- The loop of R180 as one function of the state, with at most `fuel` opcode fetches: INTERP_RUN as one atomic step
(R258). The step function does not use it; the statements compare the steps of a run with it. -/
def runLoop : Nat → State → BodyResult
  | 0, s => .ok (.ok, s)
  | fuel + 1, s =>
    match fetchCore s with
    | (none, t) => .ok (.ok, t)
    | (some b, t) =>
      match execCore (dispatchBody b) t with
      | .error f => .error f
      | .ok (.ok, u) => runLoop fuel u
      | .ok (.endOfProgram, u) => .ok (.ok, u)
      | .ok (k, u) => .ok (k, u)

/-- The opcode fetches that R182 allows: one for each byte before the end, and one that finds it. -/
def runFuel (s : State) : Nat := s.interp.byteCodeEnd - s.interp.byteCodePtr + 1

/-- The end of an INTERP_RUN in progress as one atomic step (R180, R258). -/
def runAtomic (s : State) : Result :=
  match runLoop (runFuel s) s with
  | .error f => .fault f
  | .ok (k, t) => .next (endRun k t)

end Sys2Proof.Machine
end

