-- ==== Sys2Proof/Machine/Queue.lean ====
section
/-! DEFINITION. The QUEUE commands (41_queue.md). -/

namespace Sys2Proof.Machine

/-- QUEUE_INIT (R130). -/
def execQueueInit (record : Bool) (a0 a1 : Nat) (s : State) : Result :=
  if record = false then raiseUnit .nullPointer s
  else if a1 < a0 then raiseUnit .invalidArguments s
  else returnOk { s with queue := { start := a0, stop := a1, head := a0, tail := a0, lastHead := a0, valid := true } }

/-- QUEUE_PUT after its checks (R135). -/
def queuePutBody (value : Byte) (s : State) : Result :=
  let q := s.queue
  if nextQ q q.tail = q.head then raiseUnit .queueFull s
  else
    returnOk { memWrite q.tail value s with
      queue := { q with
        lastHead := lastHeadAfter s.config .put (q.tail = q.stop) q
        tail := nextQ q q.tail } }

/-- QUEUE_PUT (R135). -/
def execQueuePut (record : Bool) (value : Byte) (s : State) : Result :=
  queueCommand record (queuePutBody value) s

/-- QUEUE_GET after its checks (R140). -/
def queueGetBody (s : State) : Result :=
  let q := s.queue
  if q.head = q.tail then raiseUnit .queueEmpty s
  else
    returnByte (memRead s q.head) { s with
      queue := { q with
        lastHead := lastHeadAfter s.config .get (q.head = q.stop) q
        head := nextQ q q.head } }

/-- QUEUE_GET (R140). -/
def execQueueGet (record : Bool) (s : State) : Result :=
  queueCommand record queueGetBody s

/-- QUEUE_GET_START (R150). -/
def execQueueGetStart (record : Bool) (s : State) : Result :=
  queueCommand record (fun s => returnAddr s.queue.start s) s

/-- QUEUE_GET_END (R151). -/
def execQueueGetEnd (record : Bool) (s : State) : Result :=
  queueCommand record (fun s => returnAddr s.queue.stop s) s

/-- QUEUE_GET_HEAD (R152). -/
def execQueueGetHead (record : Bool) (s : State) : Result :=
  queueCommand record (fun s => returnAddr s.queue.head s) s

/-- QUEUE_GET_LAST_HEAD (R153). -/
def execQueueGetLastHead (record : Bool) (s : State) : Result :=
  queueCommand record (fun s => returnAddr s.queue.lastHead s) s

/-- QUEUE_GET_TAIL (R154). -/
def execQueueGetTail (record : Bool) (s : State) : Result :=
  queueCommand record (fun s => returnAddr s.queue.tail s) s

end Sys2Proof.Machine
end

