-- ==== Sys2Proof/Machine/Dispatch.lean ====
section
/-! DEFINITION. One arm per instruction: the direct call of its meaning. -/

namespace Sys2Proof.Machine

def exec (i : Instr) (s : State) : Host.Outcome State Fault Refusal :=
  match i with
  -- IL byte code (43_il_opcodes.md)
  | .terminator => Sys2Proof.Machine.execTerminator s
  | .no => Sys2Proof.Machine.execNo s
  | .lb imm8 => Sys2Proof.Machine.execLb imm8 s
  | .undefined op => Sys2Proof.Machine.execUndefined op s
  -- STACK commands (40_stack.md)
  | .stackInit record a0 a1 a2 => Sys2Proof.Machine.execStackInit record a0 a1 a2 s
  | .stackPush record value => Sys2Proof.Machine.execStackPush record value s
  | .stackPop record => Sys2Proof.Machine.execStackPop record s
  | .stackSize record => Sys2Proof.Machine.execStackSize record s
  | .stackGetBottom record => Sys2Proof.Machine.execStackGetBottom record s
  | .stackGetTop record => Sys2Proof.Machine.execStackGetTop record s
  | .stackGetTopSentinel record => Sys2Proof.Machine.execStackGetTopSentinel record s
  -- QUEUE commands (41_queue.md)
  | .queueInit record a0 a1 => Sys2Proof.Machine.execQueueInit record a0 a1 s
  | .queuePut record value => Sys2Proof.Machine.execQueuePut record value s
  | .queueGet record => Sys2Proof.Machine.execQueueGet record s
  | .queueGetStart record => Sys2Proof.Machine.execQueueGetStart record s
  | .queueGetEnd record => Sys2Proof.Machine.execQueueGetEnd record s
  | .queueGetHead record => Sys2Proof.Machine.execQueueGetHead record s
  | .queueGetLastHead record => Sys2Proof.Machine.execQueueGetLastHead record s
  | .queueGetTail record => Sys2Proof.Machine.execQueueGetTail record s
  -- INTERP commands (42_interpreter.md)
  | .interpInit record stackRef queueRef a0 a1 => Sys2Proof.Machine.execInterpInit record stackRef queueRef a0 a1 s
  | .interpGetNextBytecode record => Sys2Proof.Machine.execInterpGetNextBytecode record s
  | .interpExec record opcode => Sys2Proof.Machine.execInterpExec record opcode s
  | .interpRun record => Sys2Proof.Machine.execInterpRun record s
  | .interpGetState record => Sys2Proof.Machine.execInterpGetState record s
  | .interpGetPtr record => Sys2Proof.Machine.execInterpGetPtr record s
  -- reserved CMD values (30_encoding.md R84)
  | .reservedCommand cmd => Sys2Proof.Machine.execReservedCommand cmd s

end Sys2Proof.Machine
end

