-- ==== Sys2Proof/Machine/Step.lean ====
section
/-! DEFINITION. One step: while an INTERP_RUN is in progress, its next iteration (R180, R258); else the host's next input
(R85); with no input the block waits (R251; log 12). -/

namespace Sys2Proof.Machine

def step (s : State) : Host.Outcome State Fault Refusal :=
  if s.runActive then
    match fetchInstr s with
    | some (i, t) => exec i t
    | none => exhaustRun s
  else
    match s.pending with
    | [] => .next s
    | .command p :: rest => exec (decodeCommand s.config.addrWidth p) { s with pending := rest }
    | .poke a v :: rest => .next (hostPoke a v { s with pending := rest })
    | .reset :: rest => .next (hostReset { s with pending := rest })

/-- The state in which the next step runs the instruction of a word of the opcode table (log 13, log 16): a port
transaction becomes the host's next input; byte code is placed by `placeByteCode`, with an INTERP_RUN in progress. -/
def State.withFetchWord (s : State) (nbits w : Nat) : State :=
  match tableEncoding nbits (w % 2 ^ nbits) with
  | .port p => { s with runActive := false, pending := .command p :: s.pending }
  | .bytes l => placeByteCode l s

end Sys2Proof.Machine
end

