-- ==== Sys2Proof/Safety.lean ====
section
/-! DEFINITION. The terms the statements use: the invariants of the block's state, the responses and host inputs
written out, which instructions belong to which unit, when an instruction uses a unit that was never initialised, and
the states with the registers nothing reads blanked out. -/

namespace Sys2Proof.Machine

/-! ### Invariants -/

/-- R23, with the non-zero bottom that R100 requires and R113 uses. -/
abbrev StackInv (r : StackRegs) : Prop :=
  r.valid = true →
    r.bottom ≠ 0 ∧ r.bottom < r.topSentinel ∧
      r.bottom ≤ r.top ∧ r.top ≤ r.topSentinel

/-- `a` lies in the region `[Q.start, Q.end]` (R60). -/
abbrev inQueueRegion (q : QueueRegs) (a : Nat) : Prop :=
  q.start ≤ a ∧ a ≤ q.stop

/-- `a` lies in the region `[S.bottom, S.top_sentinel)` (R60). -/
abbrev inStackRegion (r : StackRegs) (a : Nat) : Prop :=
  r.bottom ≤ a ∧ a < r.topSentinel

/-- R28. -/
abbrev QueueInv (q : QueueRegs) : Prop :=
  q.valid = true →
    q.start ≤ q.stop ∧ inQueueRegion q q.head ∧ inQueueRegion q q.tail

/-- R34. -/
abbrev InterpInv (r : InterpRegs) : Prop :=
  r.valid = true →
    r.byteCode < r.byteCodeEnd ∧
      r.byteCode ≤ r.byteCodePtr ∧ r.byteCodePtr ≤ r.byteCodeEnd

/-- The parameters are ones R7 allows: `INTERP_CODE` as R226 says, `MEM0` the bytes of `2 ^ AW` addresses in canonical
form; `AW` is any number. -/
abbrev ConfigInv (c : Config) : Prop :=
  c.interpCode.wf = true ∧ Memory.wf c.addrWidth c.mem0 = true

/-- The address registers of the three units (R22, R27, R33). -/
def addressRegisters (s : State) : List Nat :=
  [s.stack.data, s.stack.bottom, s.stack.topSentinel, s.stack.top,
    s.queue.start, s.queue.stop, s.queue.head, s.queue.tail, s.queue.lastHead,
    s.interp.byteCode, s.interp.byteCodeEnd, s.interp.byteCodePtr]

/-- Every address register holds an `AW`-bit value (R10, R22, R27, R33). -/
abbrev WidthInv (s : State) : Prop := ∀ a ∈ addressRegisters s, a < 2 ^ s.config.addrWidth

/-- The invariant of the block: R23, R28, R34, address registers of `AW` bits, the canonical form of MEM, parameters
that R7 allows, and that an INTERP_RUN in progress has an initialised INTERP that is not Stopped (R180, R185). -/
structure Inv (s : State) : Prop where
  stack : StackInv s.stack
  queue : QueueInv s.queue
  interp : InterpInv s.interp
  width : WidthInv s
  mem : Memory.wf s.config.addrWidth s.mem = true
  config : ConfigInv s.config
  run : s.runActive = true → s.interp.valid = true ∧ s.interp.state ≠ .stopped

/-! ### Responses and host inputs written out (R80, R86, R87, R224) -/

def okResponse : Response := { kind := .ok, code := 0, rdata := none, raddr := none }

def byteResponse (v : Byte) : Response := { kind := .ok, code := 0, rdata := some v, raddr := none }

def addrResponse (a : Nat) : Response := { kind := .ok, code := 0, rdata := none, raddr := some a }

def failResponse (k : Kind) (code : Byte) : Response := { kind := k, code := code, rdata := none, raddr := none }

def nullResponse : Response := failResponse .nullPointer 1

/-- A command with `REF = 0b001` and no address arguments. -/
def plainCommand (cmd : BitVec 8) (d : Byte) : HostInput :=
  .command { cmd := cmd, ref := 1, a0 := 0, a1 := 0, a2 := 0, d := d }

def pushInput (v : Byte) : HostInput := plainCommand 0x01#8 v
def popInput : HostInput := plainCommand 0x02#8 0
def putInput (v : Byte) : HostInput := plainCommand 0x41#8 v
def getInput : HostInput := plainCommand 0x42#8 0
def nextBytecodeInput : HostInput := plainCommand 0x81#8 0
def execInput (op : Byte) : HostInput := plainCommand 0x82#8 op

/-- The host's next input, where the block is about to take one (R85). -/
def nextInput (s : State) : Option HostInput :=
  if s.runActive then none else s.pending.head?

/-! ### Kinds of instruction -/

/-- A STACK command (R82, unit 00). -/
def isStackCommand : Instr → Bool
  | .stackInit _ _ _ _ | .stackPush _ _ | .stackPop _ | .stackSize _ | .stackGetBottom _ | .stackGetTop _
  | .stackGetTopSentinel _ => true
  | _ => false

/-- A QUEUE command (R82, unit 01). -/
def isQueueCommand : Instr → Bool
  | .queueInit _ _ _ | .queuePut _ _ | .queueGet _ | .queueGetStart _ | .queueGetEnd _ | .queueGetHead _
  | .queueGetLastHead _ | .queueGetTail _ => true
  | _ => false

/-- An IL instruction of the byte code (R70). -/
def isIl : Instr → Bool
  | .terminator | .no | .lb _ | .undefined _ => true
  | _ => false

/-- The record reference `REF[0]` of a port command (R83, R88). -/
def recordOf : Instr → Option Bool
  | .stackInit r _ _ _ | .stackPush r _ | .stackPop r | .stackSize r | .stackGetBottom r | .stackGetTop r
  | .stackGetTopSentinel r | .queueInit r _ _ | .queuePut r _ | .queueGet r | .queueGetStart r | .queueGetEnd r
  | .queueGetHead r | .queueGetLastHead r | .queueGetTail r | .interpInit r _ _ _ _ | .interpGetNextBytecode r
  | .interpExec r _ | .interpRun r | .interpGetState r | .interpGetPtr r => some r
  | .terminator | .no | .lb _ | .undefined _ | .reservedCommand _ => none

/-- LB has an operand byte that it pushes (R205, R206): there is one, and it is not a 0x00 that ends the program. -/
def pushesOperand (c : Config) (imm8 : Option Byte) : Prop :=
  ∃ v, imm8 = some v ∧ (v ≠ 0x00#8 ∨ c.lbZeroOperand = .pushesZero)

/-- The use of a unit that was never initialised, as R229 lists it, and the unit: a command other than init of a unit
whose valid bit is 0, reached after its null test (R227), or an LB that reaches its push while `S.valid` is 0. -/
def usesUninitialized (i : Instr) (s : State) (u : UnitName) : Prop :=
  match i with
  | .stackPush r _ | .stackPop r | .stackSize r | .stackGetBottom r | .stackGetTop r | .stackGetTopSentinel r =>
    r = true ∧ s.stack.valid = false ∧ u = .stack
  | .queuePut r _ | .queueGet r | .queueGetStart r | .queueGetEnd r | .queueGetHead r | .queueGetLastHead r
  | .queueGetTail r => r = true ∧ s.queue.valid = false ∧ u = .queue
  | .interpGetNextBytecode r | .interpRun r | .interpGetState r | .interpGetPtr r =>
    r = true ∧ s.interp.valid = false ∧ u = .interp
  | .interpExec r op =>
    r = true ∧
      ((s.interp.valid = false ∧ u = .interp) ∨
        (s.interp.valid = true ∧ s.interp.state ≠ .stopped ∧ op = 0x09#8 ∧
          pushesOperand s.config (byteAtCursor s) ∧ s.stack.valid = false ∧ u = .stack))
  | .lb imm8 => pushesOperand s.config imm8 ∧ s.stack.valid = false ∧ u = .stack
  | .terminator | .no | .undefined _ | .stackInit _ _ _ _ | .queueInit _ _ _ | .interpInit _ _ _ _ _
  | .reservedCommand _ => False

/-- The address an instruction stores a byte to when it succeeds (R52): `S.top` for STACK_PUSH, for LB and for an
INTERP_EXEC of LB; `Q.tail` for QUEUE_PUT. -/
def storeAddr (s : State) : Instr → Option Nat
  | .stackPush _ _ => some s.stack.top
  | .lb _ => some s.stack.top
  | .interpExec _ op => if op = 0x09#8 then some s.stack.top else none
  | .queuePut _ _ => some s.queue.tail
  | _ => none

/-! ### Blanking registers -/

/-- The state without `Q.last_head` and without the rule that updates it (R30). -/
def blankLastHead (s : State) : State :=
  { s with
    queue := { s.queue with lastHead := 0 }
    config := { s.config with lastHeadRule := .endOnWrap } }

/-- The state without `S.data` (R26) and `I.byte_code` (R36). -/
def blankUnread (s : State) : State :=
  { s with
    stack := { s.stack with data := 0 }
    interp := { s.interp with byteCode := 0 } }

/-- An outcome with its next state seen through `f`. -/
def viewOutcome (f : State → State) : Result → Result
  | .next s => .next (f s)
  | .fault r => .fault r
  | .refused r => .refused r

/-- `k` steps, stopping at the first fault or refusal; `runSteps_eq_run` in Laws/Step.lean says that this is
`Host.Core.run` of the machine. -/
def runSteps : Nat → State → Result
  | 0, s => .next s
  | k + 1, s =>
    match step s with
    | .next t => runSteps k t
    | .fault f => .fault f
    | .refused r => .refused r

/-! ### Regions and launch -/

/-- The three regions are pairwise disjoint (R253). -/
def regionsDisjoint (s : State) : Prop :=
  ∀ a : Nat,
    let inCode := s.interp.byteCode ≤ a ∧ a < s.interp.byteCodeEnd
    ¬ (inStackRegion s.stack a ∧ inQueueRegion s.queue a) ∧
      ¬ (inStackRegion s.stack a ∧ inCode) ∧ ¬ (inQueueRegion s.queue a ∧ inCode)

/-- The number of bytes a queue region holds, `L` (R29). -/
def queueLength (q : QueueRegs) : Nat := q.stop - q.start + 1

/-- The number of stored elements, `(Q.tail - Q.head) mod L` (R29). -/
def queueCount (q : QueueRegs) : Nat :=
  (q.tail + queueLength q - q.head) % queueLength q

/-- The bytes at `n` successive cursor positions from `a` on: `MEM[a]`, `MEM[nextQ(a)]`, ... (R29). -/
def queueWalk (q : QueueRegs) (m : Memory) : Nat → Nat → List Byte
  | 0, _ => []
  | n + 1, a => Memory.read m a :: queueWalk q m n (nextQ q a)

/-- The elements of the QUEUE, oldest first (R29). -/
def queueContents (s : State) : List Byte := queueWalk s.queue s.mem (queueCount s.queue) s.queue.head

/-- The elements of the STACK, oldest first: `MEM[S.bottom]` to `MEM[S.top - 1]` (R24). -/
def stackContents (s : State) : List Byte :=
  (List.range (s.stack.top - s.stack.bottom)).map
    (fun i => Memory.read s.mem (s.stack.bottom + i))

/-- The bytes of the byte-code region: `MEM[I.byte_code]` to `MEM[I.byte_code_end - 1]` (R33). -/
def programBytes (s : State) : List Byte :=
  (List.range (s.interp.byteCodeEnd - s.interp.byteCode)).map
    (fun i => Memory.read s.mem (s.interp.byteCode + i))

/-- A clean launch state for a claim about the program `prog` (R254), the STACK holding `elements`; empty is `[]`. -/
def cleanLaunch (prog elements : List Byte) (s : State) : Prop :=
  s.stack.valid = true ∧ s.queue.valid = true ∧ s.interp.valid = true ∧ s.interp.state = .running ∧
    s.interp.byteCodePtr = s.interp.byteCode ∧ stackContents s = elements ∧ regionsDisjoint s ∧
    programBytes s = prog

/-- The host's writes of the bytes `l` from the address `a` on (R252 step 1). -/
def placeInputs (a : Nat) : List Byte → List HostInput
  | [] => []
  | v :: l => .poke a v :: placeInputs (a + 1) l

end Sys2Proof.Machine
end

