-- ==== Sys2Proof/Certificates/Slice0/Obligations.lean ====
section
/-! DEFINITION. The statements for the provers, from the numbered rules of spec/. Where a statement rests on a choice of
the model, its docstring names the log entry. -/

open Sys2Proof Sys2Proof.Machine

/-! ### Encoding -/

/-- Every well-formed instruction is what its encoding decodes to, with every operand at every value (30_encoding.md,
R71 to R73, R82, R83, R88). -/
def Obligations.DecodeOfEncodeIsTheInstruction : Prop :=
  ∀ i : Instr, i.wellFormed = true → decode (encode i) = .ok i

/-- Decoding is total: every port transaction decodes, bytes decode unless there is none, and whatever is decoded is
well formed (R74, R76, R84). The addresses of a command that a block takes from its port have `AW` bits, and where a
transaction's addresses have them already, it is taken as it stands (R80, R81). -/
def Obligations.DecodingIsTotalAndWellFormed : Prop :=
  (∀ p : PortInput, ∃ i, decode (.port p) = .ok i) ∧
  (∀ l : List Byte, (∃ i, decode (.bytes l) = .ok i) ↔ l ≠ []) ∧
  (∀ (e : Encoding) (i : Instr), decode e = .ok i → i.wellFormed = true) ∧
  (∀ (aw : Nat) (p : PortInput), (decodeCommand aw p).fits aw = true) ∧
  (∀ (aw : Nat) (p : PortInput), p.fits aw = true → decode (.port p) = .ok (decodeCommand aw p))

/-- R89 and R78: the words of the spec's own examples decode to the instructions they stand for. -/
def Obligations.SpecExampleWordsDecode : Prop :=
  decode (.bytes [0x09#8, 0x76#8]) = .ok (.lb (some 0x76#8)) ∧
  decode (.bytes [0x08#8]) = .ok .no ∧
  decode (.bytes [0x00#8]) = .ok .terminator ∧
  decodeIL [0x09#8, 0x76#8, 0x00#8] = .ok (.lb (some 0x76#8), [0x00#8]) ∧
  decode (.bytes [0x07#8]) = .ok (.undefined 0x07#8) ∧
  decode (.port { cmd := 0x01#8, ref := 0b001, a0 := 0, a1 := 0, a2 := 0, d := 0x42#8 }) = .ok (.stackPush true 0x42#8) ∧
  decode (.port { cmd := 0x83#8, ref := 0b001, a0 := 0, a1 := 0, a2 := 0, d := 0 }) = .ok (.interpRun true) ∧
  decode (.port { cmd := 0x80#8, ref := 0b111, a0 := 0x0100, a1 := 0x0103, a2 := 0, d := 0 })
    = .ok (.interpInit true true true 0x0100 0x0103) ∧
  decode (.port { cmd := 0x41#8, ref := 0b001, a0 := 0, a1 := 0, a2 := 0, d := 0x61#8 }) = .ok (.queuePut true 0x61#8)

/-- R74, R71 to R73: the first byte alone selects the instruction and tells its length; LB takes the next byte, if there
is one, exactly as stored. -/
def Obligations.FirstByteSelectsInstructionAndLength : Prop :=
  ∀ (op : Byte) (rest : List Byte),
    (op = 0x00#8 → decodeIL (op :: rest) = .ok (.terminator, rest)) ∧
    (op = 0x08#8 → decodeIL (op :: rest) = .ok (.no, rest)) ∧
    (op = 0x09#8 → (∀ v tl, rest = v :: tl → decodeIL (op :: rest) = .ok (.lb (some v), tl)) ∧
      (rest = [] → decodeIL (op :: rest) = .ok (.lb none, []))) ∧
    (op ≠ 0x00#8 → op ≠ 0x08#8 → op ≠ 0x09#8 → decodeIL (op :: rest) = .ok (.undefined op, rest))

/-- R80, R83 and R88: an input a command does not use changes nothing. Two transactions with one CMD decode to the same
instruction when they agree on the inputs R88 gives the command; `REF[2:1]` counts for INTERP_INIT only. -/
def Obligations.UnusedPortInputsAreIgnored : Prop :=
  ∀ p q : PortInput, p.cmd = q.cmd →
    p.ref.getLsbD 0 = q.ref.getLsbD 0 →
    (p.cmd = 0x80#8 → p.ref = q.ref) →
    (p.cmd = 0x00#8 ∨ p.cmd = 0x40#8 ∨ p.cmd = 0x80#8 → p.a0 = q.a0 ∧ p.a1 = q.a1) →
    (p.cmd = 0x00#8 → p.a2 = q.a2) →
    (p.cmd = 0x01#8 ∨ p.cmd = 0x41#8 ∨ p.cmd = 0x82#8 → p.d = q.d) →
    decodePort p = decodePort q

/-- R84: a CMD value with unit `11`, `CMD[5:4]` not `00`, or an operation the unit lacks is a reserved command, and
no other is; it is refused, with no response and no next state. -/
def Obligations.ReservedCommandsAreRefused : Prop :=
  ∀ (p : PortInput) (s : State),
    let unitNo := p.cmd.toNat / 64
    let middle := p.cmd.toNat / 16 % 4
    let op := p.cmd.toNat % 16
    ((unitNo = 3 ∨ middle ≠ 0 ∨ (unitNo = 0 ∧ 7 ≤ op) ∨ (unitNo = 1 ∧ 8 ≤ op) ∨ (unitNo = 2 ∧ 6 ≤ op)) ↔
      decodePort p = .reservedCommand p.cmd) ∧
    exec (.reservedCommand p.cmd) s = .refused (.reservedCmd p.cmd)

/-- R31 and R87: the encodings of the kinds and of the interpreter state. The state value 3 and the kinds 10 to 14
stand for nothing. -/
def Obligations.KindAndStateEncodings : Prop :=
  [Kind.ok, .nullPointer, .invalidArguments, .stackOverflow, .stackUnderflow, .queueFull, .queueEmpty,
      .instructionNotFound, .endOfProgram, .stopped, .unknown].map Kind.bits
    = [0, 1, 2, 3, 4, 5, 6, 7, 8, 9, 15] ∧
  IState.running.bits = 0 ∧ IState.stopped.bits = 1 ∧ IState.executingInstruction.bits = 2

/-! ### Reset -/

/-- R46: after reset the three valid bits are 0 and MEM is `MEM0`; the interpreter is not Running. -/
def Obligations.ResetClearsValidBitsAndLoadsMem0 : Prop :=
  ∀ c : Config,
    (State.resetOf c).stack.valid = false ∧ (State.resetOf c).queue.valid = false ∧
    (State.resetOf c).interp.valid = false ∧ (State.resetOf c).interp.state ≠ .running ∧
    ∀ a : Nat, memRead (State.resetOf c) a = Memory.read c.mem0 a

/-- The registers R46 leaves unspecified hold 0 after reset and the interpreter is Stopped: the model's choice (log 7,
log 8), with the default parameters (log 19) and `MEM0` all zero (log 6). -/
def Obligations.ChosenResetValues : Prop :=
  State.reset.stack = { data := 0, bottom := 0, topSentinel := 0, top := 0, valid := false } ∧
  State.reset.queue = { start := 0, stop := 0, head := 0, tail := 0, lastHead := 0, valid := false } ∧
  State.reset.interp = { byteCode := 0, byteCodeEnd := 0, byteCodePtr := 0, state := .stopped, valid := false } ∧
  State.reset.mem = [] ∧ State.reset.config = Config.default ∧ State.reset.runActive = false ∧
  State.reset.pending = [] ∧ State.reset.responses = []

/-- The invariant holds after reset, for every choice of the parameters that R7 allows. -/
def Obligations.InvariantHoldsAtReset : Prop :=
  Inv State.reset ∧ ∀ c : Config, ConfigInv c → Inv (State.resetOf c)

/-! ### The step -/

/-- A step takes the host's next command when no INTERP_RUN is in progress and runs the instruction that the transaction,
with the `AW` bits of each address that the port carries, decodes to (R80, R85); a transaction of such addresses is taken
as it stands. -/
def Obligations.StepRunsTheNextCommand : Prop :=
  ∀ (s : State) (p : PortInput) (rest : List HostInput),
    s.runActive = false → s.pending = .command p :: rest →
    step s = exec (decodePort (p.narrow s.config.addrWidth)) { s with pending := rest } ∧
    (p.fits s.config.addrWidth = true → step s = exec (decodePort p) { s with pending := rest })

/-- A step of an INTERP_RUN in progress runs the instruction that the bytes at the fetch cursor decode to, with the
cursor past its opcode byte, or left on the terminator (R38, R165, R180). -/
def Obligations.StepRunsTheFetchedInstruction : Prop :=
  ∀ (s : State) (i : Instr) (tl : List Byte),
    s.runActive = true → s.interp.byteCodePtr ≠ s.interp.byteCodeEnd →
    decodeIL (memRead s s.interp.byteCodePtr ::
        (if s.interp.byteCodePtr + 1 = s.interp.byteCodeEnd then []
          else [memRead s (s.interp.byteCodePtr + 1)])) = .ok (i, tl) →
    step s = exec i (if i = .terminator then s
      else { s with interp := { s.interp with byteCodePtr := s.interp.byteCodePtr + 1 } })

/-- An INTERP_RUN whose opcode fetch finds exhaustion completes with OK; the interpreter is Stopped and the cursor stays
(R165, R183). -/
def Obligations.StepEndsTheRunAtExhaustion : Prop :=
  ∀ s : State, s.runActive = true → s.interp.byteCodePtr = s.interp.byteCodeEnd →
    step s = .next { s with
      interp := { s.interp with state := .stopped }, runActive := false
      responses := okResponse :: s.responses }

/-- With no command in progress the step takes the host's next input: with none the block waits; a write of the host
changes the one byte at its `AW`-bit address; the reset input clears the three valid bits and makes MEM equal to
`MEM0` (R250). The form of the host's inputs, the registers' values after the reset input and that the responses stay
are the model's choices (log 7, 10, 12, 20; R51, R251, R256). -/
def Obligations.StepTakesHostWritesAndReset : Prop :=
  ∀ s : State, s.runActive = false →
    (s.pending = [] → step s = .next s) ∧
    (∀ (a : Nat) (v : Byte) (rest : List HostInput), s.pending = .poke a v :: rest →
      step s = .next { s with pending := rest, mem := Memory.write s.mem (a % 2 ^ s.config.addrWidth) v }) ∧
    (∀ rest : List HostInput, s.pending = .reset :: rest →
      step s = .next { State.resetOf s.config with pending := rest, responses := s.responses })

/-! ### STACK -/

/-- R100 with R101 to R103: STACK_INIT, whole. -/
def Obligations.StackInitBindsItsRegion : Prop :=
  (∀ p : PortInput, p.cmd = 0x00#8 → decodePort p = .stackInit (p.ref.getLsbD 0) p.a0 p.a1 p.a2) ∧
  ∀ (s : State) (record : Bool) (a0 a1 a2 : Nat),
    (record = false ∨ a0 = 0 ∨ a1 = 0 ∨ a2 = 0 →
      exec (.stackInit record a0 a1 a2) s = .next { s with responses := nullResponse :: s.responses }) ∧
    (record = true → a0 ≠ 0 → a1 ≠ 0 → a2 ≠ 0 → a1 ≤ a2 →
      exec (.stackInit record a0 a1 a2) s
        = .next { s with responses := failResponse .invalidArguments 2 :: s.responses }) ∧
    (record = true → a0 ≠ 0 → a1 ≠ 0 → a2 ≠ 0 → a2 < a1 →
      exec (.stackInit record a0 a1 a2) s = .next { s with
        stack := { data := a0, bottom := a2, topSentinel := a1, top := a2, valid := true }
        responses := okResponse :: s.responses })

/-- R104 and R105: STACK_PUSH, whole. -/
def Obligations.StackPushStoresAtTop : Prop :=
  (∀ p : PortInput, p.cmd = 0x01#8 → decodePort p = .stackPush (p.ref.getLsbD 0) p.d) ∧
  ∀ (s : State) (v : Byte),
    exec (.stackPush false v) s = .next { s with responses := nullResponse :: s.responses } ∧
    (s.stack.valid = false → exec (.stackPush true v) s = .fault (.uninitialized .stack)) ∧
    (s.stack.valid = true → s.stack.top = s.stack.topSentinel →
      exec (.stackPush true v) s
        = .next { s with responses := failResponse .stackOverflow 2 :: s.responses }) ∧
    (s.stack.valid = true → s.stack.top ≠ s.stack.topSentinel →
      exec (.stackPush true v) s = .next { s with
        mem := Memory.write s.mem s.stack.top v
        stack := { s.stack with top := s.stack.top + 1 }
        responses := okResponse :: s.responses })

/-- R110: STACK_POP, whole. -/
def Obligations.StackPopReturnsTheTopByte : Prop :=
  (∀ p : PortInput, p.cmd = 0x02#8 → decodePort p = .stackPop (p.ref.getLsbD 0)) ∧
  ∀ s : State,
    exec (.stackPop false) s = .next { s with responses := nullResponse :: s.responses } ∧
    (s.stack.valid = false → exec (.stackPop true) s = .fault (.uninitialized .stack)) ∧
    (s.stack.valid = true → s.stack.top = s.stack.bottom →
      exec (.stackPop true) s
        = .next { s with responses := failResponse .stackUnderflow 2 :: s.responses }) ∧
    (s.stack.valid = true → s.stack.top ≠ s.stack.bottom →
      exec (.stackPop true) s = .next { s with
        stack := { s.stack with top := s.stack.top - 1 }
        responses := byteResponse (Memory.read s.mem (s.stack.top - 1)) :: s.responses })

/-- R115 and R118 to R121: STACK_SIZE returns the capacity, at least 1, and the accessors return their registers; they
change nothing else. -/
def Obligations.StackSizeAndAccessorsReturnRegisters : Prop :=
  (∀ p : PortInput,
    (p.cmd = 0x03#8 → decodePort p = .stackSize (p.ref.getLsbD 0)) ∧
    (p.cmd = 0x04#8 → decodePort p = .stackGetBottom (p.ref.getLsbD 0)) ∧
    (p.cmd = 0x05#8 → decodePort p = .stackGetTop (p.ref.getLsbD 0)) ∧
    (p.cmd = 0x06#8 → decodePort p = .stackGetTopSentinel (p.ref.getLsbD 0))) ∧
  ∀ s : State,
    (∀ i ∈ [Instr.stackSize false, .stackGetBottom false, .stackGetTop false, .stackGetTopSentinel false],
      exec i s = .next { s with responses := nullResponse :: s.responses }) ∧
    (s.stack.valid = false →
      ∀ i ∈ [Instr.stackSize true, .stackGetBottom true, .stackGetTop true, .stackGetTopSentinel true],
        exec i s = .fault (.uninitialized .stack)) ∧
    (s.stack.valid = true →
      exec (.stackSize true) s
        = .next { s with responses := addrResponse (s.stack.topSentinel - s.stack.bottom) :: s.responses } ∧
      (StackInv s.stack → 1 ≤ (s.stack.topSentinel - s.stack.bottom)) ∧
      exec (.stackGetBottom true) s = .next { s with responses := addrResponse s.stack.bottom :: s.responses } ∧
      exec (.stackGetTop true) s = .next { s with responses := addrResponse s.stack.top :: s.responses } ∧
      exec (.stackGetTopSentinel true) s
        = .next { s with responses := addrResponse s.stack.topSentinel :: s.responses })

/-! ### QUEUE -/

/-- R130 and R131: QUEUE_INIT, whole. -/
def Obligations.QueueInitBindsItsRegion : Prop :=
  (∀ p : PortInput, p.cmd = 0x40#8 → decodePort p = .queueInit (p.ref.getLsbD 0) p.a0 p.a1) ∧
  ∀ (s : State) (a0 a1 : Nat),
    exec (.queueInit false a0 a1) s = .next { s with responses := nullResponse :: s.responses } ∧
    (a1 < a0 →
      exec (.queueInit true a0 a1) s
        = .next { s with responses := failResponse .invalidArguments 2 :: s.responses }) ∧
    (a0 ≤ a1 →
      exec (.queueInit true a0 a1) s = .next { s with
        queue := { start := a0, stop := a1, head := a0, tail := a0, lastHead := a0, valid := true }
        responses := okResponse :: s.responses })

/-- R135 and R146: QUEUE_PUT, whole. The cursor's successor is written out; the new `Q.last_head` is the default rule's
under that rule and a free value under another (log 2). -/
def Obligations.QueuePutAppendsAtTail : Prop :=
  (∀ p : PortInput, p.cmd = 0x41#8 → decodePort p = .queuePut (p.ref.getLsbD 0) p.d) ∧
  ∀ (s : State) (v : Byte),
    let next := if s.queue.tail = s.queue.stop then s.queue.start else s.queue.tail + 1
    let lastHead := lastHeadAfter s.config .put (decide (s.queue.tail = s.queue.stop)) s.queue
    (s.config.lastHeadRule = .endOnWrap →
      lastHead = if s.queue.tail = s.queue.stop then s.queue.stop else s.queue.lastHead) ∧
    exec (.queuePut false v) s = .next { s with responses := nullResponse :: s.responses } ∧
    (s.queue.valid = false → exec (.queuePut true v) s = .fault (.uninitialized .queue)) ∧
    (s.queue.valid = true → next = s.queue.head →
      exec (.queuePut true v) s
        = .next { s with responses := failResponse .queueFull 2 :: s.responses }) ∧
    (s.queue.valid = true → next ≠ s.queue.head →
      exec (.queuePut true v) s = .next { s with
        mem := Memory.write s.mem s.queue.tail v
        queue := { s.queue with
          tail := next
          lastHead := lastHead }
        responses := okResponse :: s.responses })

/-- R140 and R146: QUEUE_GET, whole, with `Q.last_head` as in QUEUE_PUT. -/
def Obligations.QueueGetTakesFromHead : Prop :=
  (∀ p : PortInput, p.cmd = 0x42#8 → decodePort p = .queueGet (p.ref.getLsbD 0)) ∧
  ∀ s : State,
    let next := if s.queue.head = s.queue.stop then s.queue.start else s.queue.head + 1
    let lastHead := lastHeadAfter s.config .get (decide (s.queue.head = s.queue.stop)) s.queue
    (s.config.lastHeadRule = .endOnWrap →
      lastHead = if s.queue.head = s.queue.stop then s.queue.stop else s.queue.lastHead) ∧
    exec (.queueGet false) s = .next { s with responses := nullResponse :: s.responses } ∧
    (s.queue.valid = false → exec (.queueGet true) s = .fault (.uninitialized .queue)) ∧
    (s.queue.valid = true → s.queue.head = s.queue.tail →
      exec (.queueGet true) s
        = .next { s with responses := failResponse .queueEmpty 2 :: s.responses }) ∧
    (s.queue.valid = true → s.queue.head ≠ s.queue.tail →
      exec (.queueGet true) s = .next { s with
        queue := { s.queue with
          head := next
          lastHead := lastHead }
        responses := byteResponse (Memory.read s.mem s.queue.head) :: s.responses })

/-- R150 to R154: the QUEUE accessors return their registers and change nothing else. -/
def Obligations.QueueAccessorsReturnRegisters : Prop :=
  (∀ p : PortInput,
    (p.cmd = 0x43#8 → decodePort p = .queueGetStart (p.ref.getLsbD 0)) ∧
    (p.cmd = 0x44#8 → decodePort p = .queueGetEnd (p.ref.getLsbD 0)) ∧
    (p.cmd = 0x45#8 → decodePort p = .queueGetHead (p.ref.getLsbD 0)) ∧
    (p.cmd = 0x46#8 → decodePort p = .queueGetLastHead (p.ref.getLsbD 0)) ∧
    (p.cmd = 0x47#8 → decodePort p = .queueGetTail (p.ref.getLsbD 0))) ∧
  ∀ s : State,
    (∀ i ∈ [Instr.queueGetStart false, .queueGetEnd false, .queueGetHead false, .queueGetLastHead false,
        .queueGetTail false],
      exec i s = .next { s with responses := nullResponse :: s.responses }) ∧
    (s.queue.valid = false →
      ∀ i ∈ [Instr.queueGetStart true, .queueGetEnd true, .queueGetHead true, .queueGetLastHead true,
          .queueGetTail true],
        exec i s = .fault (.uninitialized .queue)) ∧
    (s.queue.valid = true →
      exec (.queueGetStart true) s = .next { s with responses := addrResponse s.queue.start :: s.responses } ∧
      exec (.queueGetEnd true) s = .next { s with responses := addrResponse s.queue.stop :: s.responses } ∧
      exec (.queueGetHead true) s = .next { s with responses := addrResponse s.queue.head :: s.responses } ∧
      exec (.queueGetLastHead true) s = .next { s with responses := addrResponse s.queue.lastHead :: s.responses } ∧
      exec (.queueGetTail true) s = .next { s with responses := addrResponse s.queue.tail :: s.responses })

/-! ### INTERP -/

/-- R160: INTERP_INIT, whole. -/
def Obligations.InterpInitBindsItsRegion : Prop :=
  (∀ p : PortInput, p.cmd = 0x80#8 →
    decodePort p = .interpInit (p.ref.getLsbD 0) (p.ref.getLsbD 1) (p.ref.getLsbD 2) p.a0 p.a1) ∧
  ∀ (s : State) (record stackRef queueRef : Bool) (a0 a1 : Nat),
    (record = false ∨ stackRef = false ∨ queueRef = false →
      exec (.interpInit record stackRef queueRef a0 a1) s
        = .next { s with responses := nullResponse :: s.responses }) ∧
    (a1 ≤ a0 →
      exec (.interpInit true true true a0 a1) s
        = .next { s with responses := failResponse .invalidArguments 2 :: s.responses }) ∧
    (a0 < a1 →
      exec (.interpInit true true true a0 a1) s = .next { s with
        interp := { byteCode := a0, byteCodeEnd := a1, byteCodePtr := a0, state := .running, valid := true }
        responses := okResponse :: s.responses })

/-- R165 and R167: INTERP_GET_NEXT_BYTECODE returns the next non-zero byte and advances the cursor, and ends the program
at exhaustion and at the terminator; the CODE is the block's INTERP_CODE (R226). -/
def Obligations.GetNextBytecodeFetches : Prop :=
  (∀ p : PortInput, p.cmd = 0x81#8 → decodePort p = .interpGetNextBytecode (p.ref.getLsbD 0)) ∧
  ∀ s : State,
    exec (.interpGetNextBytecode false) s = .next { s with responses := nullResponse :: s.responses } ∧
    (s.interp.valid = false → exec (.interpGetNextBytecode true) s = .fault (.uninitialized .interp)) ∧
    (s.interp.valid = true → s.interp.state = .stopped →
      exec (.interpGetNextBytecode true) s = .next { s with
        responses := failResponse .stopped s.config.interpCode.stopped :: s.responses }) ∧
    (s.interp.valid = true → s.interp.state ≠ .stopped →
      (s.interp.byteCodePtr = s.interp.byteCodeEnd ∨ memRead s s.interp.byteCodePtr = 0x00#8 →
        exec (.interpGetNextBytecode true) s = .next { s with
          interp := { s.interp with state := .stopped }
          responses := failResponse .endOfProgram s.config.interpCode.endOfProgram :: s.responses }) ∧
      (s.interp.byteCodePtr ≠ s.interp.byteCodeEnd → memRead s s.interp.byteCodePtr ≠ 0x00#8 →
        exec (.interpGetNextBytecode true) s = .next { s with
          interp := { s.interp with byteCodePtr := s.interp.byteCodePtr + 1 }
          responses := byteResponse (memRead s s.interp.byteCodePtr) :: s.responses }))

/-- R170 with R201, R202 and R210: INTERP_EXEC of every opcode but LB, whatever the byte at the cursor: NO leaves Running
and nothing else; every other byte, 0x00 among them, fails with InstructionNotFound and leaves
STATE_AFTER_EXEC_ERROR. -/
def Obligations.ExecOfNoAndOfUndefinedOpcodes : Prop :=
  (∀ p : PortInput, p.cmd = 0x82#8 → decodePort p = .interpExec (p.ref.getLsbD 0) p.d) ∧
  ∀ (s : State) (op : Byte),
    exec (.interpExec false op) s = .next { s with responses := nullResponse :: s.responses } ∧
    (s.interp.valid = false → exec (.interpExec true op) s = .fault (.uninitialized .interp)) ∧
    (s.interp.valid = true → s.interp.state = .stopped →
      exec (.interpExec true op) s = .next { s with
        responses := failResponse .stopped s.config.interpCode.stopped :: s.responses }) ∧
    (s.interp.valid = true → s.interp.state ≠ .stopped → op = 0x08#8 →
      exec (.interpExec true op) s = .next { s with
        interp := { s.interp with state := .running }
        responses := okResponse :: s.responses }) ∧
    (s.interp.valid = true → s.interp.state ≠ .stopped → op ≠ 0x08#8 → op ≠ 0x09#8 →
      exec (.interpExec true op) s = .next { s with
        interp := { s.interp with state := afterExecErrorState s.config.afterExecError }
        responses := failResponse .instructionNotFound s.config.interpCode.instructionNotFound :: s.responses })

/-- R170, R205 and R206: INTERP_EXEC of LB takes its operand from MEM at the cursor. -/
def Obligations.ExecOfLbPushesTheByteAtTheCursor : Prop :=
  ∀ s : State, s.interp.valid = true → s.interp.state ≠ .stopped →
    (s.interp.byteCodePtr = s.interp.byteCodeEnd ∨
        (memRead s s.interp.byteCodePtr = 0x00#8 ∧ s.config.lbZeroOperand = .terminates) →
      exec (.interpExec true 0x09#8) s = .next { s with
        interp := { s.interp with state := .stopped }
        responses := failResponse .endOfProgram s.config.interpCode.endOfProgram :: s.responses }) ∧
    (s.interp.byteCodePtr ≠ s.interp.byteCodeEnd →
      (memRead s s.interp.byteCodePtr ≠ 0x00#8 ∨ s.config.lbZeroOperand = .pushesZero) →
      (s.stack.valid = false → exec (.interpExec true 0x09#8) s = .fault (.uninitialized .stack)) ∧
      (s.stack.valid = true → s.stack.top = s.stack.topSentinel →
        exec (.interpExec true 0x09#8) s = .next { s with
          interp := { s.interp with
            byteCodePtr := s.interp.byteCodePtr + 1
            state := afterExecErrorState s.config.afterExecError }
          responses := failResponse .stackOverflow s.config.interpCode.stackOverflow :: s.responses }) ∧
      (s.stack.valid = true → s.stack.top ≠ s.stack.topSentinel →
        exec (.interpExec true 0x09#8) s = .next { s with
          mem := Memory.write s.mem s.stack.top (memRead s s.interp.byteCodePtr)
          stack := { s.stack with top := s.stack.top + 1 }
          interp := { s.interp with byteCodePtr := s.interp.byteCodePtr + 1, state := .running }
          responses := okResponse :: s.responses }))

/-- R180, its checks and its start: INTERP_RUN is in progress after them. That the iterations are steps of their own is
the model's choice, which R258 allows (log 9). -/
def Obligations.InterpRunStarts : Prop :=
  (∀ p : PortInput, p.cmd = 0x83#8 → decodePort p = .interpRun (p.ref.getLsbD 0)) ∧
  ∀ s : State,
    exec (.interpRun false) s = .next { s with responses := nullResponse :: s.responses } ∧
    (s.interp.valid = false → exec (.interpRun true) s = .fault (.uninitialized .interp)) ∧
    (s.interp.valid = true → s.interp.state = .stopped →
      exec (.interpRun true) s = .next { s with
        responses := failResponse .stopped s.config.interpCode.stopped :: s.responses }) ∧
    (s.interp.valid = true → s.interp.state ≠ .stopped →
      exec (.interpRun true) s = .next { s with runActive := true })

/-- R166, R171 and R181: in the state Stopped the fetch, exec of any opcode and run fail with Stopped and change
nothing. -/
def Obligations.StoppedRefusesFetchExecAndRun : Prop :=
  ∀ s : State, s.interp.valid = true → s.interp.state = .stopped →
    ∀ i : Instr, (i = .interpGetNextBytecode true ∨ (∃ op, i = .interpExec true op) ∨ i = .interpRun true) →
      exec i s = .next { s with
        responses := failResponse .stopped s.config.interpCode.stopped :: s.responses }

/-- R190 and R191: the INTERP accessors, in every state of the interpreter. -/
def Obligations.InterpAccessorsReturnStateAndCursor : Prop :=
  (∀ p : PortInput,
    (p.cmd = 0x84#8 → decodePort p = .interpGetState (p.ref.getLsbD 0)) ∧
    (p.cmd = 0x85#8 → decodePort p = .interpGetPtr (p.ref.getLsbD 0))) ∧
  ∀ s : State,
    exec (.interpGetState false) s = .next { s with responses := nullResponse :: s.responses } ∧
    exec (.interpGetPtr false) s = .next { s with responses := nullResponse :: s.responses } ∧
    (s.interp.valid = false →
      exec (.interpGetState true) s = .fault (.uninitialized .interp) ∧
      exec (.interpGetPtr true) s = .fault (.uninitialized .interp)) ∧
    (s.interp.valid = true →
      exec (.interpGetPtr true) s
        = .next { s with responses := addrResponse s.interp.byteCodePtr :: s.responses } ∧
      (s.interp.state = .running →
        exec (.interpGetState true) s = .next { s with responses := byteResponse 0 :: s.responses }) ∧
      (s.interp.state = .stopped →
        exec (.interpGetState true) s = .next { s with responses := byteResponse 1 :: s.responses }) ∧
      (s.interp.state = .executingInstruction →
        exec (.interpGetState true) s = .next { s with responses := byteResponse 2 :: s.responses }))

/-! ### IL instructions, as INTERP_RUN executes them -/

/-- R202 and R203: NO leaves Running and nothing else; it takes no operand byte. -/
def Obligations.NoChangesOnlyTheState : Prop :=
  (∀ rest : List Byte, decodeIL (0x08#8 :: rest) = .ok (.no, rest)) ∧
  ∀ s : State, exec .no s = .next { s with interp := { s.interp with state := .running } }

/-- R200: the terminator ends the run with OK; the interpreter is Stopped and the cursor stays. -/
def Obligations.TerminatorEndsTheRun : Prop :=
  (∀ rest : List Byte, decodeIL (0x00#8 :: rest) = .ok (.terminator, rest)) ∧
  ∀ s : State, exec .terminator s = .next { s with
    interp := { s.interp with state := .stopped }, runActive := false
    responses := okResponse :: s.responses }

/-- R210: an undefined opcode, whatever its byte, ends the run with InstructionNotFound and leaves
STATE_AFTER_EXEC_ERROR (R172); nothing is read or written. -/
def Obligations.UndefinedOpcodeEndsTheRun : Prop :=
  ∀ (s : State) (op : Byte), exec (.undefined op) s = .next { s with
    interp := { s.interp with state := afterExecErrorState s.config.afterExecError }, runActive := false
    responses := failResponse .instructionNotFound s.config.interpCode.instructionNotFound :: s.responses }

/-- R205, R206 and R184: LB in a run, whole, under both values of LB_ZERO_OPERAND. -/
def Obligations.LbPushesItsLiteral : Prop :=
  ∀ (s : State) (imm8 : Option Byte),
    (imm8 = none ∨ (imm8 = some 0x00#8 ∧ s.config.lbZeroOperand = .terminates) →
      exec (.lb imm8) s = .next { s with
        interp := { s.interp with state := .stopped }, runActive := false
        responses := okResponse :: s.responses }) ∧
    (∀ v : Byte, imm8 = some v → (v ≠ 0x00#8 ∨ s.config.lbZeroOperand = .pushesZero) →
      (s.stack.valid = false → exec (.lb imm8) s = .fault (.uninitialized .stack)) ∧
      (s.stack.valid = true → s.stack.top = s.stack.topSentinel →
        exec (.lb imm8) s = .next { s with
          interp := { s.interp with
            byteCodePtr := s.interp.byteCodePtr + 1
            state := afterExecErrorState s.config.afterExecError }
          runActive := false
          responses := failResponse .stackOverflow s.config.interpCode.stackOverflow :: s.responses }) ∧
      (s.stack.valid = true → s.stack.top ≠ s.stack.topSentinel →
        exec (.lb imm8) s = .next { s with
          mem := Memory.write s.mem s.stack.top v
          stack := { s.stack with top := s.stack.top + 1 }
          interp := { s.interp with byteCodePtr := s.interp.byteCodePtr + 1, state := .running } }))

/-! ### Frames -/

/-- An instruction that stores nothing leaves every byte of memory as it was: every instruction but STACK_PUSH, LB, an
INTERP_EXEC of LB, and QUEUE_PUT (R52, R121). -/
def Obligations.OtherInstructionsLeaveMemory : Prop :=
  ∀ (i : Instr) (s t : State), storeAddr s i = none → exec i s = .next t →
    ∀ a : Nat, Memory.read t.mem a = Memory.read s.mem a

/-- A storing instruction leaves every byte of memory but the one at its store address, `S.top` or `Q.tail` before the
instruction (R52, R104, R135). -/
def Obligations.StoresChangeOneByte : Prop :=
  ∀ (i : Instr) (s t : State) (a : Nat), Memory.wf s.config.addrWidth s.mem = true → storeAddr s i = some a →
    exec i s = .next t → ∀ b : Nat, b ≠ a → Memory.read t.mem b = Memory.read s.mem b

/-- The registers an instruction leaves: STACK commands those of QUEUE and INTERP, QUEUE commands those of STACK and
INTERP, every other instruction those of QUEUE and, but for LB and an INTERP_EXEC of LB, those of STACK; the parameters
and the host's inputs always; and no instruction but the unit's init changes the bounds of a region or a valid bit. -/
def Obligations.InstructionsKeepOtherUnits : Prop :=
  ∀ (i : Instr) (s t : State), exec i s = .next t →
    t.config = s.config ∧ t.pending = s.pending ∧
    (isStackCommand i = true → t.queue = s.queue ∧ t.interp = s.interp ∧ t.runActive = s.runActive) ∧
    (isQueueCommand i = true → t.stack = s.stack ∧ t.interp = s.interp ∧ t.runActive = s.runActive) ∧
    (isStackCommand i = false → isQueueCommand i = false →
      t.queue = s.queue ∧ (storeAddr s i = none → t.stack = s.stack)) ∧
    ((∀ r a0 a1 a2, i ≠ .stackInit r a0 a1 a2) →
      t.stack.data = s.stack.data ∧ t.stack.bottom = s.stack.bottom ∧
      t.stack.topSentinel = s.stack.topSentinel ∧ t.stack.valid = s.stack.valid) ∧
    ((∀ r a0 a1, i ≠ .queueInit r a0 a1) →
      t.queue.start = s.queue.start ∧ t.queue.stop = s.queue.stop ∧ t.queue.valid = s.queue.valid) ∧
    ((∀ r sr qr a0 a1, i ≠ .interpInit r sr qr a0 a1) →
      t.interp.byteCode = s.interp.byteCode ∧ t.interp.byteCodeEnd = s.interp.byteCodeEnd ∧
      t.interp.valid = s.interp.valid)

/-- R102, R112, R131, R144, R161 and R228: a STACK or QUEUE command, INTERP_INIT or INTERP accessor that fails changes
nothing but the response; a fetch, exec, run or IL instruction that fails leaves STACK, QUEUE and MEM. -/
def Obligations.FailuresKeepUnitsAndMemory : Prop :=
  ∀ (i : Instr) (s t : State) (r : Response), exec i s = .next t → t.responses = r :: s.responses → r.kind ≠ .ok →
    t.stack = s.stack ∧ t.queue = s.queue ∧ t.mem = s.mem ∧
    ((∀ b, i ≠ .interpGetNextBytecode b) → (∀ b op, i ≠ .interpExec b op) → isIl i = false →
      t = { s with responses := r :: s.responses })

/-! ### Whole-machine rules -/

/-- R21: only the reset input clears a valid bit. -/
def Obligations.OnlyResetClearsValidBits : Prop :=
  ∀ s t : State, step s = .next t → nextInput s ≠ some .reset →
    (s.stack.valid = true → t.stack.valid = true) ∧ (s.queue.valid = true → t.queue.valid = true) ∧
    (s.interp.valid = true → t.interp.valid = true)

/-- R161 and R233: only a successful INTERP_INIT leaves the state Stopped. The reset input is among the steps: that it
leaves Stopped too is the model's choice (log 8), where R46 leaves the state unspecified but not Running. -/
def Obligations.OnlyInterpInitLeavesStopped : Prop :=
  ∀ s t : State, Inv s → step s = .next t → s.interp.state = .stopped → t.interp.state ≠ .stopped →
    ∃ p a0 a1, nextInput s = some (.command p) ∧ decodeCommand s.config.addrWidth p = .interpInit true true true a0 a1 ∧
      a0 < a1 ∧ t.interp.state = .running ∧ t.interp.byteCodePtr = a0

/-- R60: a STACK command writes only inside `[S.bottom, S.top_sentinel)`, a QUEUE command only inside
`[Q.start, Q.end]`, and every other instruction writes MEM only through STACK, as LB does. -/
def Obligations.WritesStayInsideTheRegions : Prop :=
  ∀ (i : Instr) (s t : State) (a : Nat), Inv s → exec i s = .next t → memRead t a ≠ memRead s a →
    (isQueueCommand i = true ∧ s.queue.valid = true ∧ inQueueRegion s.queue a) ∨
    (s.stack.valid = true ∧ inStackRegion s.stack a ∧
      (isStackCommand i = true ∨ (∃ v, i = .lb v) ∨ ∃ r, i = .interpExec r 0x09#8))

/-- R30 and R145: neither `Q.last_head` nor its update rule decides anything: from two states that differ only in them,
a step that is not a QUEUE_GET_LAST_HEAD gives the same outcome but for them. -/
def Obligations.LastHeadDecidesNothing : Prop :=
  ∀ s t : State, blankLastHead s = blankLastHead t →
    (∀ p, nextInput s = some (.command p) → decodeCommand s.config.addrWidth p ≠ .queueGetLastHead true) →
    viewOutcome blankLastHead (step s) = viewOutcome blankLastHead (step t)

/-- R26 and R36: `S.data` and `I.byte_code` are read by no step: from two states that differ only in them, a step gives
the same outcome but for them. -/
def Obligations.DataAndByteCodeAreNeverRead : Prop :=
  ∀ s t : State, blankUnread s = blankUnread t →
    viewOutcome blankUnread (step s) = viewOutcome blankUnread (step t)

/-- R229 and R231, with the order of checks of R227 and the fetch before the push of R205: an instruction faults exactly
when it uses a unit that was never initialised, and the fault names the unit. A null reference is reported before
(R227), and an LB that finds no operand to push ends the program before it uses the STACK (R205). -/
def Obligations.FaultsAreUsesOfUninitializedUnits : Prop :=
  ∀ (i : Instr) (s : State) (f : Fault),
    exec i s = .fault f ↔ ∃ u, f = .uninitialized u ∧ usesUninitialized i s u

/-- Completion: an instruction that uses no unit that was never initialised, and is no reserved command, answers a next
state, in every state and for all operands (R223, R229 to R231). -/
def Obligations.InitializedUnitsAlwaysAnswer : Prop :=
  ∀ (i : Instr) (s : State), (∀ u, ¬ usesUninitialized i s u) → (∀ cmd, i ≠ .reservedCommand cmd) →
    ∃ t, exec i s = .next t

/-- R227, step 2: a null record reference decides before every other check of a port command, in every state, and the
command changes nothing but its response. -/
def Obligations.NullReferenceDecidesFirst : Prop :=
  ∀ (i : Instr) (s : State), recordOf i = some false →
    exec i s = .next { s with responses := nullResponse :: s.responses }

/-- R43, R85, R86: a step adds a response exactly when a command completes: one was in progress or is taken, and none
is in progress after the step. It adds one response or none; without one a run is in progress, or no command was in
progress or taken. A step of a run takes no input. -/
def Obligations.EachCommandCompletesWithOneResponse : Prop :=
  ∀ s t : State, step s = .next t →
    let commandAtWork := s.runActive = true ∨ ∃ p, nextInput s = some (.command p)
    ((∃ r, t.responses = r :: s.responses) ∨ t.responses = s.responses) ∧
    ((∃ r, t.responses = r :: s.responses) ↔ commandAtWork ∧ t.runActive = false) ∧
    (t.runActive = true → commandAtWork) ∧
    (s.runActive = true → t.pending = s.pending)

/-- R86, R87 and R224 to R226: what a response holds: never the kind Unknown; CODE 0 for OK, 1 for NullPointer and at
least 2 else; the CODE decodes to the kind by the instruction's own mapping; RDATA or RADDR only with OK, and never
both; RADDR has `AW` bits where the registers do. -/
def Obligations.ResponsesAreOfTheRuledForm : Prop :=
  ∀ (i : Instr) (s t : State) (r : Response), s.config.interpCode.wf = true → exec i s = .next t →
    t.responses = r :: s.responses →
    r.kind ≠ .unknown ∧ (r.kind = .ok ↔ r.code = 0) ∧ (r.kind = .nullPointer ↔ r.code = 1) ∧
    hostKind s.config.interpCode i r.code = r.kind ∧
    (r.kind ≠ .ok → r.rdata = none ∧ r.raddr = none) ∧ (r.rdata = none ∨ r.raddr = none) ∧
    (WidthInv s → ∀ a, r.raddr = some a → a < 2 ^ s.config.addrWidth)

/-- R10, R113, R143, R178 and R213: under the invariant no address computation leaves 0..2^AW-1: what is added to stays
below `2 ^ AW`, and what is subtracted is no larger than what it is subtracted from. -/
def Obligations.AddressComputationsNeverWrap : Prop :=
  ∀ s : State, Inv s →
    let bound := 2 ^ s.config.addrWidth
    (s.stack.valid = true →
      (s.stack.top ≠ s.stack.topSentinel → s.stack.top < s.stack.topSentinel ∧ s.stack.top + 1 < bound) ∧
      (s.stack.top ≠ s.stack.bottom → s.stack.bottom < s.stack.top ∧ s.stack.top - 1 + 1 = s.stack.top) ∧
      1 ≤ s.stack.bottom ∧
      s.stack.topSentinel - s.stack.bottom + s.stack.bottom = s.stack.topSentinel ∧
      1 ≤ s.stack.topSentinel - s.stack.bottom ∧ s.stack.topSentinel - s.stack.bottom < bound ∧
      ∀ a : Nat, inStackRegion s.stack a → a ≤ bound - 2) ∧
    (s.queue.valid = true → ∀ a : Nat, inQueueRegion s.queue a →
      (a = s.queue.stop → nextQ s.queue a = s.queue.start) ∧
      (a ≠ s.queue.stop → a < s.queue.stop ∧ nextQ s.queue a = a + 1 ∧ a + 1 < bound) ∧
      inQueueRegion s.queue (nextQ s.queue a)) ∧
    (s.interp.valid = true →
      (s.interp.byteCodePtr ≠ s.interp.byteCodeEnd →
        s.interp.byteCodePtr < s.interp.byteCodeEnd ∧ s.interp.byteCodePtr + 1 < bound) ∧
      ∀ a : Nat, a < s.interp.byteCodeEnd → a ≤ bound - 2)

/-- R23, R28, R34: every step keeps the invariant, from every state that has it and for every `AW`; an address register
keeps its `AW` bits (R22, R27, R33). -/
def Obligations.EveryStepKeepsTheInvariant : Prop :=
  ∀ s t : State, Inv s → step s = .next t → Inv t

/-- R50 and R62: a read gives the latest write; and the canonical form, which every write to one of the 2^AW addresses
keeps, makes equal memories equal data: two canonical memories that read alike at these are one list (the form is the
model's, log 6). -/
def Obligations.MemoryReadsTheLatestWriteAndIsCanonical : Prop :=
  (∀ (s : State) (a b : Nat) (v : Byte), Memory.wf s.config.addrWidth s.mem = true →
    (a < 2 ^ s.config.addrWidth → Memory.wf s.config.addrWidth (memWrite a v s).mem = true) ∧
    memRead (memWrite a v s) b = if b = a then v else memRead s b) ∧
  ∀ (aw : Nat) (m n : Memory), Memory.wf aw m = true → Memory.wf aw n = true →
    (∀ a : Nat, a < 2 ^ aw → Memory.read m a = Memory.read n a) → m = n

/-! ### The STACK and the QUEUE as lists -/

/-- R24, R111: the STACK is a list of bytes that push extends at its end and pop shortens at its end; a push fails exactly
when the list is as long as the capacity, a pop exactly when it is empty. -/
def Obligations.StackRefinesABoundedList : Prop :=
  ∀ s : State, Inv s → s.stack.valid = true →
    (stackContents s).length ≤ s.stack.topSentinel - s.stack.bottom ∧
    (∀ v : Byte,
      ((stackContents s).length = s.stack.topSentinel - s.stack.bottom →
        exec (.stackPush true v) s
          = .next { s with responses := failResponse .stackOverflow 2 :: s.responses }) ∧
      ((stackContents s).length < s.stack.topSentinel - s.stack.bottom →
        ∃ t, exec (.stackPush true v) s = .next t ∧ t.responses = okResponse :: s.responses ∧
          stackContents t = stackContents s ++ [v])) ∧
    (stackContents s = [] →
      exec (.stackPop true) s
        = .next { s with responses := failResponse .stackUnderflow 2 :: s.responses }) ∧
    (∀ (l : List Byte) (v : Byte), stackContents s = l ++ [v] →
      ∃ t, exec (.stackPop true) s = .next t ∧ t.responses = byteResponse v :: s.responses ∧ stackContents t = l)

/-- R29, R141, R145: the QUEUE is a list of bytes that put extends at its end and get shortens at its front, whatever the
wraps; a put fails exactly when the list is one shorter than the region, a get exactly when it is empty. -/
def Obligations.QueueRefinesABoundedFifo : Prop :=
  ∀ s : State, Inv s → s.queue.valid = true →
    (queueContents s).length ≤ queueLength s.queue - 1 ∧
    (∀ v : Byte,
      ((queueContents s).length = queueLength s.queue - 1 →
        exec (.queuePut true v) s
          = .next { s with responses := failResponse .queueFull 2 :: s.responses }) ∧
      ((queueContents s).length < queueLength s.queue - 1 →
        ∃ t, exec (.queuePut true v) s = .next t ∧ t.responses = okResponse :: s.responses ∧
          queueContents t = queueContents s ++ [v])) ∧
    (queueContents s = [] →
      exec (.queueGet true) s
        = .next { s with responses := failResponse .queueEmpty 2 :: s.responses }) ∧
    (∀ (v : Byte) (l : List Byte), queueContents s = v :: l →
      ∃ t, exec (.queueGet true) s = .next t ∧ t.responses = byteResponse v :: s.responses ∧ queueContents t = l)

/-! ### Sequences of commands -/

/-- R258 and R182: the steps of an INTERP_RUN in progress end, after at most one step for each byte before the end of the
region and one more, and then give what the loop of R180 gives as one atomic step. -/
def Obligations.StepsOfARunGiveItsAtomicResult : Prop :=
  ∀ s : State, Inv s → s.runActive = true →
    ∃ k, k ≤ s.interp.byteCodeEnd - s.interp.byteCodePtr + 1 ∧
      runSteps k s = runAtomic s

/-- R183: how an INTERP_RUN ends: the kind, the state and the cursor, and what stands at the cursor. -/
def Obligations.RunEndsAsTheTableSays : Prop :=
  ∀ s t : State, Inv s → s.runActive = true → runAtomic s = .next t →
    t.runActive = false ∧
    ((t.responses = okResponse :: s.responses ∧ t.interp.state = .stopped ∧
        (t.interp.byteCodePtr = t.interp.byteCodeEnd ∨ memRead t t.interp.byteCodePtr = 0x00#8)) ∨
      (t.responses = failResponse .instructionNotFound s.config.interpCode.instructionNotFound :: s.responses ∧
        t.interp.state = afterExecErrorState s.config.afterExecError ∧
        isUndefinedOpcode (memRead t (t.interp.byteCodePtr - 1)) = true) ∨
      (t.responses = failResponse .stackOverflow s.config.interpCode.stackOverflow :: s.responses ∧
        t.interp.state = afterExecErrorState s.config.afterExecError ∧
        memRead t (t.interp.byteCodePtr - 2) = 0x09#8 ∧ t.stack.top = t.stack.topSentinel))

/-- R241: INTERP_GET_NEXT_BYTECODE followed by INTERP_EXEC of the byte it returns does to the units and to MEM what one
iteration of INTERP_RUN does, and faults where it faults. -/
def Obligations.SingleStepIsOneIteration : Prop :=
  ∀ (s : State) (b : Byte) (rest : List HostInput), s.runActive = false →
    s.interp.valid = true → s.interp.state ≠ .stopped → byteAtCursor s = some b → b ≠ 0x00#8 →
    s.pending = nextBytecodeInput :: execInput b :: rest →
    (∀ t, step { s with runActive := true } = .next t →
      ∃ u, runSteps 2 s = .next u ∧ u.stack = t.stack ∧ u.queue = t.queue ∧
        u.interp = t.interp ∧ u.mem = t.mem) ∧
    (∀ f, step { s with runActive := true } = .fault f → runSteps 2 s = .fault f)

/-- R106: a STACK of capacity `N` newly initialised accepts exactly `N` pushes; the next fails with StackOverflow. -/
def Obligations.NewStackAcceptsExactlyItsCapacity : Prop :=
  ∀ (s : State) (vs : List Byte) (v : Byte) (rest : List HostInput), Inv s → s.runActive = false →
    s.stack.valid = true → s.stack.top = s.stack.bottom →
    vs.length = s.stack.topSentinel - s.stack.bottom →
    s.pending = vs.map pushInput ++ pushInput v :: rest →
    ∃ t, runSteps (vs.length + 1) s = .next t ∧
      t.responses = failResponse .stackOverflow 2 :: (List.replicate vs.length okResponse ++ s.responses) ∧
      t.pending = rest

/-- R111: the most recently pushed byte is the first popped: pushing any bytes for which there is room and popping as
many gives them back in reverse order and leaves the STACK as it was; if that is empty, one more pop fails with
StackUnderflow. -/
def Obligations.PopsReturnPushesInReverse : Prop :=
  ∀ (s : State) (vs : List Byte) (rest : List HostInput), Inv s → s.runActive = false → s.stack.valid = true →
    s.stack.top + vs.length ≤ s.stack.topSentinel →
    s.pending = vs.map pushInput ++ List.replicate vs.length popInput ++ rest →
    ∃ t, runSteps (2 * vs.length) s = .next t ∧
      t.responses = vs.map byteResponse ++ List.replicate vs.length okResponse ++ s.responses ∧
      t.stack = s.stack ∧ t.pending = rest ∧
      (s.stack.top = s.stack.bottom → ∀ tl, rest = popInput :: tl →
        ∃ u, step t = .next u ∧ u.responses = failResponse .stackUnderflow 2 :: t.responses ∧ u.stack = s.stack)

/-- R136: an empty QUEUE of region length `M`, its cursors anywhere, accepts exactly `M - 1` puts; the next fails with
QueueFull. For `M = 1` that is none (R137). -/
def Obligations.EmptyQueueAcceptsLengthMinusOne : Prop :=
  ∀ (s : State) (vs : List Byte) (v : Byte) (rest : List HostInput), Inv s → s.runActive = false →
    s.queue.valid = true → s.queue.head = s.queue.tail → vs.length = queueLength s.queue - 1 →
    s.pending = vs.map putInput ++ putInput v :: rest →
    ∃ t, runSteps (vs.length + 1) s = .next t ∧
      t.responses = failResponse .queueFull 2 :: (List.replicate vs.length okResponse ++ s.responses) ∧
      t.pending = rest

/-- R141 and R142: values are returned in the order they were enqueued, regardless of wraps: filling an empty QUEUE with
any number of bytes that it holds, from any cursor position, and draining it gives them back in order and leaves it
empty, and a further get fails with QueueEmpty. -/
def Obligations.GetsReturnPutsInOrder : Prop :=
  ∀ (s : State) (vs : List Byte) (rest : List HostInput), Inv s → s.runActive = false → s.queue.valid = true →
    s.queue.head = s.queue.tail → vs.length ≤ queueLength s.queue - 1 →
    s.pending = vs.map putInput ++ List.replicate (vs.length + 1) getInput ++ rest →
    ∃ t, runSteps (2 * vs.length + 1) s = .next t ∧
      t.responses = failResponse .queueEmpty 2 ::
        ((vs.map byteResponse).reverse ++ List.replicate vs.length okResponse ++ s.responses) ∧
      t.queue.head = t.queue.tail ∧ t.pending = rest

/-- R254: the state after the boot order of R252 is a clean launch state for the program placed: the host's writes of its
bytes, STACK_INIT, QUEUE_INIT and INTERP_INIT, with arguments of `AW` bits that each accepts and regions that are
disjoint. The STACK is empty, the byte-code region holds the program, and every other byte of MEM is as it was. That the
host places the program by inputs of the model is log 10. -/
def Obligations.BootOrderReachesACleanLaunch : Prop :=
  ∀ (s : State) (prog : List Byte) (data bottom sentinel start stop code : Nat) (rest : List HostInput),
    Inv s → s.runActive = false → prog ≠ [] →
    data ≠ 0 → bottom ≠ 0 → bottom < sentinel → start ≤ stop →
    data < 2 ^ s.config.addrWidth → sentinel < 2 ^ s.config.addrWidth → stop < 2 ^ s.config.addrWidth →
    code + prog.length < 2 ^ s.config.addrWidth →
    (∀ a : Nat, ¬ ((bottom ≤ a ∧ a < sentinel) ∧ start ≤ a ∧ a ≤ stop) ∧
      ¬ ((bottom ≤ a ∧ a < sentinel) ∧ code ≤ a ∧ a < code + prog.length) ∧
      ¬ ((start ≤ a ∧ a ≤ stop) ∧ code ≤ a ∧ a < code + prog.length)) →
    s.pending = placeInputs code prog ++
      .command { cmd := 0x00#8, ref := 1, a0 := data, a1 := sentinel, a2 := bottom, d := 0 } ::
      .command { cmd := 0x40#8, ref := 1, a0 := start, a1 := stop, a2 := 0, d := 0 } ::
      .command { cmd := 0x80#8, ref := 7, a0 := code, a1 := code + prog.length, a2 := 0, d := 0 } :: rest →
    ∃ t, runSteps (prog.length + 3) s = .next t ∧ cleanLaunch prog [] t ∧ t.stack.top = t.stack.bottom ∧
      t.stack.bottom = bottom ∧ t.stack.topSentinel = sentinel ∧ t.queue.start = start ∧ t.queue.stop = stop ∧
      t.queue.head = t.queue.tail ∧ t.interp.byteCode = code ∧ t.interp.byteCodeEnd = code + prog.length ∧
      (∀ a : Nat, a < code ∨ code + prog.length ≤ a → memRead t a = memRead s a) ∧ t.pending = rest
end

