-- ==== Sys2Proof/Laws/Memory.lean ====
section
/-! SUPPORT. The laws of memory: a read after a write, the frame of a write, and that every operation keeps the
canonical form. -/

namespace Sys2Proof.Machine

variable {aw : Nat}

/-- A memory listed from `lo` on reads as unlisted below `lo`. -/
theorem Memory.read_below {m : Memory} {lo a : Nat} (h : Memory.wfFrom aw lo m = true) (ha : a < lo) :
    Memory.read m a = Memory.unlisted := by
  induction m generalizing lo with
  | nil => rfl
  | cons c m ih =>
    obtain ⟨k, v⟩ := c
    simp only [Memory.wfFrom, Bool.and_eq_true, decide_eq_true_eq] at h
    simp only [Memory.read]
    rw [if_neg (by omega)]
    exact ih h.2 (by omega)

theorem Memory.wfFrom_mono {m : Memory} {lo lo' : Nat} (h : Memory.wfFrom aw lo m = true) (hl : lo' ≤ lo) :
    Memory.wfFrom aw lo' m = true := by
  cases m with
  | nil => rfl
  | cons c m =>
    obtain ⟨k, v⟩ := c
    simp only [Memory.wfFrom, Bool.and_eq_true, decide_eq_true_eq] at h ⊢
    exact ⟨⟨⟨by omega, h.1.1.2⟩, h.1.2⟩, h.2⟩

theorem Memory.wfFrom_cons {m : Memory} {lo a : Nat} {v : Byte} (h : Memory.wfFrom aw (a + 1) m = true) (hl : lo ≤ a)
    (ha : a < 2 ^ aw) : Memory.wfFrom aw lo (Memory.cons a v m) = true := by
  unfold Memory.cons
  split
  · exact Memory.wfFrom_mono h (by omega)
  · simp_all [Memory.wfFrom]

theorem Memory.wfFrom_write {m : Memory} {lo a : Nat} {v : Byte} (h : Memory.wfFrom aw lo m = true) (hl : lo ≤ a)
    (ha : a < 2 ^ aw) : Memory.wfFrom aw lo (Memory.write m a v) = true := by
  induction m generalizing lo with
  | nil => exact Memory.wfFrom_cons rfl hl ha
  | cons c m ih =>
    obtain ⟨k, u⟩ := c
    have h' := h
    simp only [Memory.wfFrom, Bool.and_eq_true, decide_eq_true_eq] at h'
    simp only [Memory.write]
    split
    · refine Memory.wfFrom_cons ?_ hl ha
      simp only [Memory.wfFrom, Bool.and_eq_true, decide_eq_true_eq]
      exact ⟨⟨⟨by omega, h'.1.1.2⟩, h'.1.2⟩, h'.2⟩
    · split
      · subst a; exact Memory.wfFrom_cons h'.2 hl ha
      · simp only [Memory.wfFrom, Bool.and_eq_true, decide_eq_true_eq]
        exact ⟨h'.1, ih h'.2 (by omega)⟩

/-- A write keeps the canonical form. -/
theorem Memory.wf_write {m : Memory} {a : Nat} {v : Byte} (h : Memory.wf aw m = true) (ha : a < 2 ^ aw) :
    Memory.wf aw (Memory.write m a v) = true :=
  Memory.wfFrom_write h (Nat.zero_le _) ha

theorem Memory.read_cons {m : Memory} {a b : Nat} {v : Byte} (h : Memory.wfFrom aw (a + 1) m = true) :
    Memory.read (Memory.cons a v m) b = if b = a then v else Memory.read m b := by
  unfold Memory.cons
  split
  · split
    · subst b; rw [Memory.read_below h (by omega)]; simp_all
    · rfl
  · simp only [Memory.read, eq_comm]

/-- A read after a write: the byte written at its own address, every other byte as before. -/
theorem Memory.read_write_from {m : Memory} {lo a b : Nat} {v : Byte} (h : Memory.wfFrom aw lo m = true) :
    Memory.read (Memory.write m a v) b = if b = a then v else Memory.read m b := by
  induction m generalizing lo with
  | nil => exact Memory.read_cons (aw := aw) rfl
  | cons c m ih =>
    obtain ⟨k, u⟩ := c
    have h' := h
    simp only [Memory.wfFrom, Bool.and_eq_true, decide_eq_true_eq] at h'
    simp only [Memory.write]
    split
    · refine Memory.read_cons (aw := aw) ?_
      simp only [Memory.wfFrom, Bool.and_eq_true, decide_eq_true_eq]
      exact ⟨⟨⟨by omega, h'.1.1.2⟩, h'.1.2⟩, h'.2⟩
    · split
      · subst a
        rw [Memory.read_cons h'.2]
        by_cases hb : b = k
        · simp [hb]
        · simp [Memory.read, hb, Ne.symm hb]
      · simp only [Memory.read, ih h'.2]
        split <;> simp_all <;> omega

theorem Memory.read_write {m : Memory} {a b : Nat} {v : Byte} (h : Memory.wf aw m = true) :
    Memory.read (Memory.write m a v) b = if b = a then v else Memory.read m b :=
  Memory.read_write_from h

end Sys2Proof.Machine
end

