-- ==== Sys2Proof/Laws/State.lean ====
section
/-! SUPPORT. One lemma per field and update of `State`, so that no proof unfolds an update. -/

namespace Sys2Proof.Machine

section
variable (s : State) (a : Nat) (v : Byte) (x : IState) (r : Response) (k : Kind)

@[simp] theorem setTop_stack : (setTop a s).stack = { s.stack with top := a } := rfl
@[simp] theorem setTop_queue : (setTop a s).queue = s.queue := rfl
@[simp] theorem setTop_interp : (setTop a s).interp = s.interp := rfl
@[simp] theorem setTop_mem : (setTop a s).mem = s.mem := rfl
@[simp] theorem setTop_config : (setTop a s).config = s.config := rfl
@[simp] theorem setTop_runActive : (setTop a s).runActive = s.runActive := rfl
@[simp] theorem setTop_pending : (setTop a s).pending = s.pending := rfl
@[simp] theorem setTop_responses : (setTop a s).responses = s.responses := rfl

@[simp] theorem setIState_stack : (setIState x s).stack = s.stack := rfl
@[simp] theorem setIState_queue : (setIState x s).queue = s.queue := rfl
@[simp] theorem setIState_interp : (setIState x s).interp = { s.interp with state := x } := rfl
@[simp] theorem setIState_mem : (setIState x s).mem = s.mem := rfl
@[simp] theorem setIState_config : (setIState x s).config = s.config := rfl
@[simp] theorem setIState_runActive : (setIState x s).runActive = s.runActive := rfl
@[simp] theorem setIState_pending : (setIState x s).pending = s.pending := rfl
@[simp] theorem setIState_responses : (setIState x s).responses = s.responses := rfl

@[simp] theorem setCursor_stack : (setCursor a s).stack = s.stack := rfl
@[simp] theorem setCursor_queue : (setCursor a s).queue = s.queue := rfl
@[simp] theorem setCursor_interp : (setCursor a s).interp = { s.interp with byteCodePtr := a } := rfl
@[simp] theorem setCursor_mem : (setCursor a s).mem = s.mem := rfl
@[simp] theorem setCursor_config : (setCursor a s).config = s.config := rfl
@[simp] theorem setCursor_runActive : (setCursor a s).runActive = s.runActive := rfl
@[simp] theorem setCursor_pending : (setCursor a s).pending = s.pending := rfl
@[simp] theorem setCursor_responses : (setCursor a s).responses = s.responses := rfl

@[simp] theorem advance_interp : (advance s).interp = { s.interp with byteCodePtr := s.interp.byteCodePtr + 1 } := rfl
@[simp] theorem advance_stack : (advance s).stack = s.stack := rfl
@[simp] theorem advance_queue : (advance s).queue = s.queue := rfl
@[simp] theorem advance_mem : (advance s).mem = s.mem := rfl
@[simp] theorem advance_config : (advance s).config = s.config := rfl
@[simp] theorem advance_runActive : (advance s).runActive = s.runActive := rfl
@[simp] theorem advance_pending : (advance s).pending = s.pending := rfl
@[simp] theorem advance_responses : (advance s).responses = s.responses := rfl

@[simp] theorem stopInterp_interp : (stopInterp s).interp = { s.interp with state := .stopped } := rfl
@[simp] theorem stopInterp_stack : (stopInterp s).stack = s.stack := rfl
@[simp] theorem stopInterp_queue : (stopInterp s).queue = s.queue := rfl
@[simp] theorem stopInterp_mem : (stopInterp s).mem = s.mem := rfl
@[simp] theorem stopInterp_config : (stopInterp s).config = s.config := rfl
@[simp] theorem stopInterp_runActive : (stopInterp s).runActive = s.runActive := rfl
@[simp] theorem stopInterp_pending : (stopInterp s).pending = s.pending := rfl
@[simp] theorem stopInterp_responses : (stopInterp s).responses = s.responses := rfl

@[simp] theorem memWrite_stack : (memWrite a v s).stack = s.stack := rfl
@[simp] theorem memWrite_queue : (memWrite a v s).queue = s.queue := rfl
@[simp] theorem memWrite_interp : (memWrite a v s).interp = s.interp := rfl
@[simp] theorem memWrite_mem : (memWrite a v s).mem = Memory.write s.mem a v := rfl
@[simp] theorem memWrite_config : (memWrite a v s).config = s.config := rfl
@[simp] theorem memWrite_runActive : (memWrite a v s).runActive = s.runActive := rfl
@[simp] theorem memWrite_pending : (memWrite a v s).pending = s.pending := rfl
@[simp] theorem memWrite_responses : (memWrite a v s).responses = s.responses := rfl

@[simp] theorem respond_stack : (respond r s).stack = s.stack := rfl
@[simp] theorem respond_queue : (respond r s).queue = s.queue := rfl
@[simp] theorem respond_interp : (respond r s).interp = s.interp := rfl
@[simp] theorem respond_mem : (respond r s).mem = s.mem := rfl
@[simp] theorem respond_config : (respond r s).config = s.config := rfl
@[simp] theorem respond_runActive : (respond r s).runActive = s.runActive := rfl
@[simp] theorem respond_pending : (respond r s).pending = s.pending := rfl
@[simp] theorem respond_responses : (respond r s).responses = r :: s.responses := rfl

@[simp] theorem endRun_stack : (endRun k s).stack = s.stack := rfl
@[simp] theorem endRun_queue : (endRun k s).queue = s.queue := rfl
@[simp] theorem endRun_interp : (endRun k s).interp = s.interp := rfl
@[simp] theorem endRun_mem : (endRun k s).mem = s.mem := rfl
@[simp] theorem endRun_config : (endRun k s).config = s.config := rfl
@[simp] theorem endRun_runActive : (endRun k s).runActive = false := rfl
@[simp] theorem endRun_pending : (endRun k s).pending = s.pending := rfl
@[simp] theorem endRun_responses :
    (endRun k s).responses = failResponse k (interpCode s.config.interpCode k) :: s.responses := rfl

@[simp] theorem hostPoke_stack : (hostPoke a v s).stack = s.stack := rfl
@[simp] theorem hostPoke_queue : (hostPoke a v s).queue = s.queue := rfl
@[simp] theorem hostPoke_interp : (hostPoke a v s).interp = s.interp := rfl
@[simp] theorem hostPoke_mem :
    (hostPoke a v s).mem = Memory.write s.mem (narrowAddr s.config.addrWidth a) v := rfl
@[simp] theorem hostPoke_config : (hostPoke a v s).config = s.config := rfl
@[simp] theorem hostPoke_runActive : (hostPoke a v s).runActive = s.runActive := rfl
@[simp] theorem hostPoke_pending : (hostPoke a v s).pending = s.pending := rfl
@[simp] theorem hostPoke_responses : (hostPoke a v s).responses = s.responses := rfl

@[simp] theorem hostReset_stack : (hostReset s).stack = StackRegs.reset := rfl
@[simp] theorem hostReset_queue : (hostReset s).queue = QueueRegs.reset := rfl
@[simp] theorem hostReset_interp : (hostReset s).interp = InterpRegs.reset := rfl
@[simp] theorem hostReset_mem : (hostReset s).mem = s.config.mem0 := rfl
@[simp] theorem hostReset_config : (hostReset s).config = s.config := rfl
@[simp] theorem hostReset_runActive : (hostReset s).runActive = false := rfl
@[simp] theorem hostReset_pending : (hostReset s).pending = s.pending := rfl
@[simp] theorem hostReset_responses : (hostReset s).responses = s.responses := rfl

end

end Sys2Proof.Machine
end

