-- ==== Sys2Proof/Laws/Ops.lean ====
section
/-! SUPPORT. For each shared operation, once, everything it can do. -/

namespace Sys2Proof.Machine

/-- The lines carry an address of their width. -/
theorem narrowAddr_lt (aw : Nat) (a : Nat) : narrowAddr aw a < 2 ^ aw := Nat.mod_lt _ (Nat.two_pow_pos aw)

/-- An address of the lines' width is carried as it is. -/
theorem narrowAddr_of_lt {aw : Nat} {a : Nat} (h : a < 2 ^ aw) : narrowAddr aw a = a := Nat.mod_eq_of_lt h

/-- A transaction whose addresses have the port's width is taken as it stands. -/
theorem PortInput.narrow_of_fits {aw : Nat} {p : PortInput} (h : p.fits aw = true) : p.narrow aw = p := by
  simp only [PortInput.fits, Bool.and_eq_true, decide_eq_true_eq] at h
  rw [PortInput.narrow, narrowAddr_of_lt h.1.1, narrowAddr_of_lt h.1.2, narrowAddr_of_lt h.2]

/-- The new `Q.last_head` has `AW` bits where the registers do. -/
theorem lastHeadAfter_lt {c : Config} {q : QueueRegs} (op : QueueOp) (wrapped : Bool) (hs : q.stop < 2 ^ c.addrWidth)
    (hl : q.lastHead < 2 ^ c.addrWidth) : lastHeadAfter c op wrapped q < 2 ^ c.addrWidth := by
  unfold lastHeadAfter
  split
  · split
    · exact hs
    · exact hl
  · exact narrowAddr_lt _ _

/-- The width of the address registers, register by register. -/
theorem widthInv_iff {s : State} :
    WidthInv s ↔
      let bound := 2 ^ s.config.addrWidth
      (s.stack.data < bound ∧ s.stack.bottom < bound ∧ s.stack.topSentinel < bound ∧ s.stack.top < bound) ∧
      (s.queue.start < bound ∧ s.queue.stop < bound ∧ s.queue.head < bound ∧ s.queue.tail < bound ∧
        s.queue.lastHead < bound) ∧
      s.interp.byteCode < bound ∧ s.interp.byteCodeEnd < bound ∧ s.interp.byteCodePtr < bound := by
  simp [WidthInv, addressRegisters, and_assoc]

/-- The checks of a command: a null reference, an invalid unit, or the body. -/
theorem checked_cases (record valid : Bool) (u : UnitName) (body : State → Result) (s : State) :
    (record = false ∧ checked record valid u body s = .next (respond nullResponse s)) ∨
    (record = true ∧ valid = false ∧ checked record valid u body s = .fault (.uninitialized u)) ∨
    (record = true ∧ valid = true ∧ checked record valid u body s = body s) := by
  cases record <;> cases valid <;> simp [checked] <;> rfl

/-- The checks of a command that fetches or executes. -/
theorem activeCommand_cases (record : Bool) (body : State → Result) (s : State) :
    (record = false ∧ activeCommand record body s = .next (respond nullResponse s)) ∨
    (record = true ∧ s.interp.valid = false ∧ activeCommand record body s = .fault (.uninitialized .interp)) ∨
    (record = true ∧ s.interp.valid = true ∧ s.interp.state = .stopped ∧
      activeCommand record body s = .next (respond (failResponse .stopped s.config.interpCode.stopped) s)) ∨
    (record = true ∧ s.interp.valid = true ∧ s.interp.state ≠ .stopped ∧
      activeCommand record body s = body s) := by
  rcases checked_cases record s.interp.valid .interp
    (fun s => if s.interp.state = .stopped then raiseInterp .stopped s else body s) s with h | h | h
  · exact .inl h
  · exact .inr (.inl h)
  · by_cases hs : s.interp.state = .stopped
    · refine .inr (.inr (.inl ⟨h.1, h.2.1, hs, ?_⟩))
      rw [activeCommand, interpCommand, h.2.2, if_pos hs]; rfl
    · refine .inr (.inr (.inr ⟨h.1, h.2.1, hs, ?_⟩))
      rw [activeCommand, interpCommand, h.2.2, if_neg hs]

theorem checked_invalid {valid : Bool} (h : valid = false) (u : UnitName) (body : State → Result) (s : State) :
    checked true valid u body s = .fault (.uninitialized u) := by subst h; rfl

theorem checked_valid {valid : Bool} (h : valid = true) (u : UnitName) (body : State → Result) (s : State) :
    checked true valid u body s = body s := by subst h; rfl

section
variable {s : State} (body : State → Result)

theorem stackCommand_invalid (h : s.stack.valid = false) :
    stackCommand true body s = .fault (.uninitialized .stack) := by rw [stackCommand, checked_invalid h]

theorem stackCommand_valid (h : s.stack.valid = true) : stackCommand true body s = body s := by
  rw [stackCommand, checked_valid h]

theorem queueCommand_invalid (h : s.queue.valid = false) :
    queueCommand true body s = .fault (.uninitialized .queue) := by rw [queueCommand, checked_invalid h]

theorem queueCommand_valid (h : s.queue.valid = true) : queueCommand true body s = body s := by
  rw [queueCommand, checked_valid h]

theorem interpCommand_invalid (h : s.interp.valid = false) :
    interpCommand true body s = .fault (.uninitialized .interp) := by rw [interpCommand, checked_invalid h]

theorem interpCommand_valid (h : s.interp.valid = true) : interpCommand true body s = body s := by
  rw [interpCommand, checked_valid h]

theorem activeCommand_invalid (h : s.interp.valid = false) :
    activeCommand true body s = .fault (.uninitialized .interp) := by rw [activeCommand, interpCommand_invalid _ h]

theorem activeCommand_stopped (h : s.interp.valid = true) (hs : s.interp.state = .stopped) :
    activeCommand true body s = .next (respond (failResponse .stopped s.config.interpCode.stopped) s) := by
  rw [activeCommand, interpCommand_valid _ h, if_pos hs]; rfl

theorem activeCommand_active (h : s.interp.valid = true) (hs : s.interp.state ≠ .stopped) :
    activeCommand true body s = body s := by
  rw [activeCommand, interpCommand_valid _ h, if_neg hs]

end

/-- The push: on a full STACK nothing, else the byte at the old top and the cursor one further. -/
theorem stackPushCore_cases (v : Byte) (s : State) :
    (s.stack.top = s.stack.topSentinel ∧ stackPushCore v s = (.stackOverflow, s)) ∨
    (s.stack.top ≠ s.stack.topSentinel ∧
      stackPushCore v s = (.ok, setTop (s.stack.top + 1) (memWrite s.stack.top v s))) := by
  by_cases h : s.stack.top = s.stack.topSentinel
  · exact .inl ⟨h, if_pos h⟩
  · exact .inr ⟨h, if_neg h⟩

/-- A fetch, once the byte at the cursor is known: the end of the program, or the byte and the cursor one further. -/
theorem takeByte_cases (z : Bool) (b : Option Byte) (s : State) :
    ((b = none ∨ (b = some 0x00#8 ∧ z = true)) ∧ takeByte z b s = (none, stopInterp s)) ∨
    (∃ v, b = some v ∧ (v ≠ 0x00#8 ∨ z = false) ∧ takeByte z b s = (some v, advance s)) := by
  cases b with
  | none => exact .inl ⟨.inl rfl, rfl⟩
  | some v =>
    by_cases h : v = 0x00#8 ∧ z = true
    · exact .inl ⟨.inr ⟨by rw [h.1], h.2⟩, if_pos h⟩
    · refine .inr ⟨v, rfl, ?_, if_neg h⟩
      cases z <;> simp_all

theorem byteAtCursor_cases (s : State) :
    (s.interp.byteCodePtr = s.interp.byteCodeEnd ∧ byteAtCursor s = none) ∨
    (s.interp.byteCodePtr ≠ s.interp.byteCodeEnd ∧ byteAtCursor s = some (memRead s s.interp.byteCodePtr)) := by
  by_cases h : s.interp.byteCodePtr = s.interp.byteCodeEnd
  · exact .inl ⟨h, if_pos h⟩
  · exact .inr ⟨h, if_neg h⟩

@[simp] theorem byteAtCursor_setIState (x : IState) (s : State) :
    byteAtCursor (setIState x s) = byteAtCursor s := rfl

/-- The operand read of LB. -/
theorem lbOperand_cases (imm8 : Option Byte) (s : State) :
    ((imm8 = none ∨ (imm8 = some 0x00#8 ∧ s.config.lbZeroOperand = .terminates)) ∧
      lbOperand imm8 s = (none, stopInterp s)) ∨
    (∃ v, imm8 = some v ∧ (v ≠ 0x00#8 ∨ s.config.lbZeroOperand = .pushesZero) ∧
      lbOperand imm8 s = (some v, advance s)) := by
  rcases takeByte_cases (s.config.lbZeroOperand = .terminates) imm8 s with h | ⟨v, hv, hz, h⟩
  · exact .inl ⟨h.1.imp_right (fun h => ⟨h.1, by simpa using h.2⟩), h.2⟩
  · refine .inr ⟨v, hv, hz.imp_right (fun hz => ?_), h⟩
    cases hc : s.config.lbZeroOperand <;> simp_all

/-- LB inside exec: the end of the program, a model fault, a full STACK, or the push, each with the state it leaves. -/
theorem execCore_lb_cases (imm8 : Option Byte) (s : State) :
    ((imm8 = none ∨ (imm8 = some 0x00#8 ∧ s.config.lbZeroOperand = .terminates)) ∧
      execCore (lbBody imm8) s = .ok (.endOfProgram, setIState .stopped s)) ∨
    (∃ v, imm8 = some v ∧ (v ≠ 0x00#8 ∨ s.config.lbZeroOperand = .pushesZero) ∧
      ((s.stack.valid = false ∧ execCore (lbBody imm8) s = .error (.uninitialized .stack)) ∨
       (s.stack.valid = true ∧ s.stack.top = s.stack.topSentinel ∧
        execCore (lbBody imm8) s
          = .ok (.stackOverflow, setIState (afterExecErrorState s.config.afterExecError) (advance s))) ∨
       (s.stack.valid = true ∧ s.stack.top ≠ s.stack.topSentinel ∧
        execCore (lbBody imm8) s
          = .ok (.ok, setIState .running (setTop (s.stack.top + 1) (memWrite s.stack.top v (advance s))))))) := by
  rcases lbOperand_cases imm8 (setIState .executingInstruction s) with ⟨h, e⟩ | ⟨v, hv, hz, e⟩
  · refine .inl ⟨h, ?_⟩
    simp only [execCore, lbBody, e]; rfl
  · refine .inr ⟨v, hv, hz, ?_⟩
    by_cases hs : s.stack.valid = false
    · refine .inl ⟨hs, ?_⟩
      simp only [execCore, lbBody, e]
      rw [if_pos (by exact hs)]
    · have hs' : s.stack.valid = true := by simpa using hs
      refine .inr ?_
      rcases stackPushCore_cases v (advance (setIState .executingInstruction s)) with ⟨ht, p⟩ | ⟨ht, p⟩
      · refine .inl ⟨hs', ht, ?_⟩
        simp only [execCore, lbBody, e, p]
        rw [if_neg (by exact hs)]; rfl
      · refine .inr ⟨hs', ht, ?_⟩
        simp only [execCore, lbBody, e, p]
        rw [if_neg (by exact hs)]; rfl

theorem execCore_no (s : State) : execCore noBody s = .ok (.ok, setIState .running s) := rfl

theorem execCore_undefined (s : State) :
    execCore undefinedBody s
      = .ok (.instructionNotFound, setIState (afterExecErrorState s.config.afterExecError) s) := rfl

/-- The dispatch inside exec: the body of NO, of LB with the byte at the cursor, or of an undefined opcode. -/
theorem execCore_dispatch_cases (op : Byte) (s : State) :
    (op = 0x08#8 ∧ execCore (dispatchBody op) s = execCore noBody s) ∨
    (op = 0x09#8 ∧ execCore (dispatchBody op) s = execCore (lbBody (byteAtCursor s)) s) ∨
    (op ≠ 0x08#8 ∧ op ≠ 0x09#8 ∧ execCore (dispatchBody op) s = execCore undefinedBody s) := by
  by_cases h8 : op = 0x08#8
  · exact .inl ⟨h8, by simp [execCore, dispatchBody, h8]⟩
  · by_cases h9 : op = 0x09#8
    · exact .inr (.inl ⟨h9, by simp [execCore, dispatchBody, h9]⟩)
    · exact .inr (.inr ⟨h8, h9, by simp [execCore, dispatchBody, h8, h9]⟩)

/-- The byte-code fetch: the end of the program, or the non-zero byte at the cursor and the cursor one further. -/
theorem fetchCore_cases (s : State) :
    ((s.interp.byteCodePtr = s.interp.byteCodeEnd ∨ memRead s s.interp.byteCodePtr = 0x00#8) ∧
      fetchCore s = (none, stopInterp s)) ∨
    (s.interp.byteCodePtr ≠ s.interp.byteCodeEnd ∧ memRead s s.interp.byteCodePtr ≠ 0x00#8 ∧
      fetchCore s = (some (memRead s s.interp.byteCodePtr), advance s)) := by
  rcases byteAtCursor_cases s with ⟨h, e⟩ | ⟨h, e⟩
  · exact .inl ⟨.inl h, by simp [fetchCore, takeByte, e]⟩
  · by_cases hz : memRead s s.interp.byteCodePtr = 0x00#8
    · exact .inl ⟨.inr hz, by simp [fetchCore, takeByte, e, hz]⟩
    · exact .inr ⟨h, hz, by simp [fetchCore, takeByte, e, hz]⟩

end Sys2Proof.Machine
end

