-- ==== Sys2Proof/Laws/Exec.lean ====
section
/-! SUPPORT. What an instruction can do, said once: `Effect i s t` lists every way in which `exec i s` answers the next
state `t`, and `exec_effect` says that there is no other. -/

namespace Sys2Proof.Machine

/-- The ways LB leaves the state inside exec, `imm8` its operand byte. -/
inductive LbEffect (imm8 : Option Byte) (s : State) : Kind → State → Prop where
  | ends (h : imm8 = none ∨ (imm8 = some 0x00#8 ∧ s.config.lbZeroOperand = .terminates)) :
      LbEffect imm8 s .endOfProgram (stopInterp s)
  | overflows (v : Byte) (hv : imm8 = some v) (hz : v ≠ 0x00#8 ∨ s.config.lbZeroOperand = .pushesZero)
      (hs : s.stack.valid = true) (ht : s.stack.top = s.stack.topSentinel) :
      LbEffect imm8 s .stackOverflow (setIState (afterExecErrorState s.config.afterExecError) (advance s))
  | pushes (v : Byte) (hv : imm8 = some v) (hz : v ≠ 0x00#8 ∨ s.config.lbZeroOperand = .pushesZero)
      (hs : s.stack.valid = true) (ht : s.stack.top ≠ s.stack.topSentinel) :
      LbEffect imm8 s .ok
        (setIState .running (setTop (s.stack.top + 1) (memWrite s.stack.top v (advance s))))

/-- LB leaves the QUEUE, the parameters, the host's inputs, the responses and the bounds of the STACK and of the byte code;
unless it pushes it leaves STACK and MEM. -/
theorem LbEffect.frame {imm8 : Option Byte} {s t : State} {k : Kind} (h : LbEffect imm8 s k t) :
    t.queue = s.queue ∧ t.config = s.config ∧ t.pending = s.pending ∧ t.responses = s.responses ∧
    t.runActive = s.runActive ∧
    (t.stack.data = s.stack.data ∧ t.stack.bottom = s.stack.bottom ∧
      t.stack.topSentinel = s.stack.topSentinel ∧ t.stack.valid = s.stack.valid) ∧
    (t.interp.byteCode = s.interp.byteCode ∧ t.interp.byteCodeEnd = s.interp.byteCodeEnd ∧
      t.interp.valid = s.interp.valid) ∧
    (k ≠ .ok → t.mem = s.mem ∧ t.stack = s.stack) := by
  cases h <;> simp

/-- The address an accessor returns in RADDR. -/
def accessorAddr (s : State) : Instr → Option Nat
  | .stackSize _ => some (s.stack.topSentinel - s.stack.bottom)
  | .stackGetBottom _ => some s.stack.bottom
  | .stackGetTop _ => some s.stack.top
  | .stackGetTopSentinel _ => some s.stack.topSentinel
  | .queueGetStart _ => some s.queue.start
  | .queueGetEnd _ => some s.queue.stop
  | .queueGetHead _ => some s.queue.head
  | .queueGetLastHead _ => some s.queue.lastHead
  | .queueGetTail _ => some s.queue.tail
  | .interpGetPtr _ => some s.interp.byteCodePtr
  | _ => none

/-- Every way an instruction takes the block to a next state. -/
inductive Effect : Instr → State → State → Prop where
  | nullRef {i s} (hr : recordOf i = some false) : Effect i s (respond nullResponse s)
  | nullArgument {s r a0 a1 a2} : Effect (.stackInit r a0 a1 a2) s (respond nullResponse s)
  | nullUnit {s r sr qr a0 a1} : Effect (.interpInit r sr qr a0 a1) s (respond nullResponse s)
  | fails {i s} (k : Kind) (hi : recordOf i = some true) (hk : domainFailure i = some k) :
      Effect i s (respond (failResponse k 2) s)
  | readsAddr {i s} (a : Nat) (ha : accessorAddr s i = some a) (hi : recordOf i = some true) :
      Effect i s (respond (addrResponse a) s)
  | readsState {s} : Effect (.interpGetState true) s (respond (byteResponse (s.interp.state.bits.setWidth 8)) s)
  | isStopped {i s} (hi : recordOf i = some true) (hf : failsByInterpCode i = true) (hv : s.interp.valid = true)
      (hs : s.interp.state = .stopped) :
      Effect i s (respond (failResponse .stopped s.config.interpCode.stopped) s)
  | stackInit {s a0 a1 a2} (h2 : a2 ≠ 0) (h : a2 < a1) :
      Effect (.stackInit true a0 a1 a2) s
        (respond okResponse { s with stack := { data := a0, bottom := a2, topSentinel := a1, top := a2, valid := true } })
  | stackPush {s v} (hv : s.stack.valid = true) (ht : s.stack.top ≠ s.stack.topSentinel) :
      Effect (.stackPush true v) s (respond okResponse (setTop (s.stack.top + 1) (memWrite s.stack.top v s)))
  | stackPop {s} (hv : s.stack.valid = true) (ht : s.stack.top ≠ s.stack.bottom) :
      Effect (.stackPop true) s
        (respond (byteResponse (memRead s (s.stack.top - 1))) (setTop (s.stack.top - 1) s))
  | queueInit {s a0 a1} (h : a0 ≤ a1) :
      Effect (.queueInit true a0 a1) s
        (respond okResponse
          { s with queue := { start := a0, stop := a1, head := a0, tail := a0, lastHead := a0, valid := true } })
  | queuePut {s v} (hv : s.queue.valid = true) (ht : nextQ s.queue s.queue.tail ≠ s.queue.head) :
      Effect (.queuePut true v) s
        (respond okResponse { memWrite s.queue.tail v s with
          queue := { s.queue with
            lastHead := lastHeadAfter s.config .put (s.queue.tail = s.queue.stop) s.queue
            tail := nextQ s.queue s.queue.tail } })
  | queueGet {s} (hv : s.queue.valid = true) (ht : s.queue.head ≠ s.queue.tail) :
      Effect (.queueGet true) s
        (respond (byteResponse (memRead s s.queue.head)) { s with
          queue := { s.queue with
            lastHead := lastHeadAfter s.config .get (s.queue.head = s.queue.stop) s.queue
            head := nextQ s.queue s.queue.head } })
  | interpInit {s a0 a1} (h : a0 < a1) :
      Effect (.interpInit true true true a0 a1) s
        (respond okResponse { s with
          interp := { byteCode := a0, byteCodeEnd := a1, byteCodePtr := a0, state := .running, valid := true } })
  | fetchEnds {s} (hv : s.interp.valid = true) (hs : s.interp.state ≠ .stopped) :
      Effect (.interpGetNextBytecode true) s
        (respond (failResponse .endOfProgram s.config.interpCode.endOfProgram) (stopInterp s))
  | fetches {s} (hv : s.interp.valid = true) (hs : s.interp.state ≠ .stopped)
      (hp : s.interp.byteCodePtr ≠ s.interp.byteCodeEnd) :
      Effect (.interpGetNextBytecode true) s
        (respond (byteResponse (memRead s s.interp.byteCodePtr)) (advance s))
  | execNo {s} (hv : s.interp.valid = true) (hs : s.interp.state ≠ .stopped) :
      Effect (.interpExec true 0x08#8) s (respond okResponse (setIState .running s))
  | execUndefined {s} (op : Byte) (hv : s.interp.valid = true) (hs : s.interp.state ≠ .stopped)
      (h8 : op ≠ 0x08#8) (h9 : op ≠ 0x09#8) :
      Effect (.interpExec true op) s
        (respond (failResponse .instructionNotFound s.config.interpCode.instructionNotFound)
          (setIState (afterExecErrorState s.config.afterExecError) s))
  | execLbOk {s t} (hv : s.interp.valid = true) (hs : s.interp.state ≠ .stopped)
      (h : LbEffect (byteAtCursor s) s .ok t) : Effect (.interpExec true 0x09#8) s (respond okResponse t)
  | execLbFails {s t} (k : Kind) (hk : k ≠ .ok) (hv : s.interp.valid = true) (hs : s.interp.state ≠ .stopped)
      (h : LbEffect (byteAtCursor s) s k t) :
      Effect (.interpExec true 0x09#8) s (respond (failResponse k (interpCode s.config.interpCode k)) t)
  | runStarts {s} (hv : s.interp.valid = true) (hs : s.interp.state ≠ .stopped) :
      Effect (.interpRun true) s { s with runActive := true }
  | terminator {s} : Effect .terminator s (endRun .ok (stopInterp s))
  | no {s} : Effect .no s (setIState .running s)
  | undefined {s} (op : Byte) :
      Effect (.undefined op) s
        (endRun .instructionNotFound (setIState (afterExecErrorState s.config.afterExecError) s))
  | lbOk {s imm8 t} (h : LbEffect imm8 s .ok t) : Effect (.lb imm8) s t
  | lbEnds {s imm8 t} (h : LbEffect imm8 s .endOfProgram t) : Effect (.lb imm8) s (endRun .ok t)
  | lbOverflows {s imm8 t} (h : LbEffect imm8 s .stackOverflow t) : Effect (.lb imm8) s (endRun .stackOverflow t)

/-- LB inside exec does what `LbEffect` lists, or uses a STACK that was never initialised. -/
theorem execCore_lb_effect (imm8 : Option Byte) (s : State) :
    (∃ k t, execCore (lbBody imm8) s = .ok (k, t) ∧ LbEffect imm8 s k t) ∨
    (execCore (lbBody imm8) s = .error (.uninitialized .stack) ∧ pushesOperand s.config imm8 ∧
      s.stack.valid = false) := by
  rcases execCore_lb_cases imm8 s with ⟨h, e⟩ | ⟨v, hv, hz, ⟨hs, e⟩ | ⟨hs, ht, e⟩ | ⟨hs, ht, e⟩⟩
  · exact .inl ⟨_, _, e, .ends h⟩
  · exact .inr ⟨e, ⟨v, hv, hz⟩, hs⟩
  · exact .inl ⟨_, _, e, .overflows v hv hz hs ht⟩
  · exact .inl ⟨_, _, e, .pushes v hv hz hs ht⟩

/-- The outcome of a command whose body is `body`, by the checks of R227. -/
theorem checked_effect {i : Instr} {s : State} {record valid : Bool} {u : UnitName} {body : State → Result}
    (hi : recordOf i = some record)
    (hb : recordOf i = some true → valid = true →
      (∃ t, body s = .next t ∧ Effect i s t) ∨ ∃ w, body s = .fault (.uninitialized w)) :
    (∃ t, checked record valid u body s = .next t ∧ Effect i s t) ∨
      ∃ w, checked record valid u body s = .fault (.uninitialized w) := by
  rcases checked_cases record valid u body s with ⟨h, e⟩ | ⟨_, _, e⟩ | ⟨h, hv, e⟩
  · exact .inl ⟨_, e, .nullRef (h ▸ hi)⟩
  · exact .inr ⟨_, e⟩
  · rw [e]; exact hb (h ▸ hi) hv

/-- The same for a command that fetches or executes. -/
theorem activeCommand_effect {i : Instr} {s : State} {record : Bool} {body : State → Result}
    (hi : recordOf i = some record) (hf : failsByInterpCode i = true)
    (hb : recordOf i = some true → s.interp.valid = true → s.interp.state ≠ .stopped →
      (∃ t, body s = .next t ∧ Effect i s t) ∨ ∃ w, body s = .fault (.uninitialized w)) :
    (∃ t, activeCommand record body s = .next t ∧ Effect i s t) ∨
      ∃ w, activeCommand record body s = .fault (.uninitialized w) := by
  rcases activeCommand_cases record body s with ⟨h, e⟩ | ⟨_, _, e⟩ | ⟨h, hv, hs, e⟩ | ⟨h, hv, hs, e⟩
  · exact .inl ⟨_, e, .nullRef (h ▸ hi)⟩
  · exact .inr ⟨_, e⟩
  · exact .inl ⟨_, e, .isStopped (h ▸ hi) hf hv hs⟩
  · rw [e]; exact hb (h ▸ hi) hv hs

theorem interpExecBody_effect {s : State} (op : Byte) (hv : s.interp.valid = true) (hs : s.interp.state ≠ .stopped) :
    (∃ t, interpExecBody op s = .next t ∧ Effect (.interpExec true op) s t) ∨
      ∃ w, interpExecBody op s = .fault (.uninitialized w) := by
  rcases execCore_dispatch_cases op s with ⟨rfl, e⟩ | ⟨rfl, e⟩ | ⟨h8, h9, e⟩
  · refine .inl ⟨_, ?_, .execNo hv hs⟩
    rw [interpExecBody, e]; rfl
  · rcases execCore_lb_effect (byteAtCursor s) s with ⟨k, t, e', h⟩ | ⟨e', _⟩
    · refine .inl ?_
      rw [interpExecBody, e, e']
      cases h with
      | ends h => exact ⟨_, rfl, .execLbFails _ (by decide) hv hs (.ends h)⟩
      | overflows v h1 h2 h3 h4 => exact ⟨_, rfl, .execLbFails _ (by decide) hv hs (.overflows v h1 h2 h3 h4)⟩
      | pushes v h1 h2 h3 h4 => exact ⟨_, rfl, .execLbOk hv hs (.pushes v h1 h2 h3 h4)⟩
    · exact .inr ⟨_, by rw [interpExecBody, e, e']⟩
  · refine .inl ⟨_, ?_, .execUndefined op hv hs h8 h9⟩
    rw [interpExecBody, e]; rfl

theorem execLb_effect (imm8 : Option Byte) (s : State) :
    (∃ t, execLb imm8 s = .next t ∧ Effect (.lb imm8) s t) ∨
      ∃ w, execLb imm8 s = .fault (.uninitialized w) := by
  rcases execCore_lb_effect imm8 s with ⟨k, t, e, h⟩ | ⟨e, _⟩
  · refine .inl ?_
    rw [execLb, e]
    cases h with
    | ends h => exact ⟨_, rfl, .lbEnds (.ends h)⟩
    | overflows v h1 h2 h3 h4 => exact ⟨_, rfl, .lbOverflows (.overflows v h1 h2 h3 h4)⟩
    | pushes v h1 h2 h3 h4 => exact ⟨_, rfl, .lbOk (.pushes v h1 h2 h3 h4)⟩
  · exact .inr ⟨_, by rw [execLb, e]; rfl⟩

theorem execStackInit_effect (r : Bool) (a0 a1 a2 : Nat) (s : State) :
    ∃ t, execStackInit r a0 a1 a2 s = .next t ∧ Effect (.stackInit r a0 a1 a2) s t := by
  unfold execStackInit
  split
  · exact ⟨_, rfl, .nullArgument⟩
  · rename_i h
    simp only [isNull, decide_eq_true_eq, not_or, Bool.not_eq_false] at h
    obtain ⟨rfl, -, -, h2⟩ := h
    split
    · exact ⟨_, rfl, .fails _ rfl rfl⟩
    · rename_i h1
      exact ⟨_, rfl, .stackInit h2 (Nat.lt_of_not_le h1)⟩

theorem execQueueInit_effect (r : Bool) (a0 a1 : Nat) (s : State) :
    ∃ t, execQueueInit r a0 a1 s = .next t ∧ Effect (.queueInit r a0 a1) s t := by
  cases r with
  | false => exact ⟨_, rfl, .nullRef rfl⟩
  | true =>
    simp only [execQueueInit, Bool.true_eq_false, if_false]
    split
    · exact ⟨_, rfl, .fails _ rfl rfl⟩
    · rename_i h
      exact ⟨_, rfl, .queueInit (Nat.le_of_not_lt h)⟩

theorem execInterpInit_effect (r sr qr : Bool) (a0 a1 : Nat) (s : State) :
    ∃ t, execInterpInit r sr qr a0 a1 s = .next t ∧ Effect (.interpInit r sr qr a0 a1) s t := by
  unfold execInterpInit
  split
  · exact ⟨_, rfl, .nullUnit⟩
  · rename_i h
    simp only [not_or, Bool.not_eq_false] at h
    obtain ⟨rfl, rfl, rfl⟩ := h
    split
    · exact ⟨_, rfl, .fails _ rfl rfl⟩
    · rename_i h1
      exact ⟨_, rfl, .interpInit (Nat.lt_of_not_le h1)⟩

/-- An instruction that is no reserved command answers a next state by one of its effects, or faults. -/
theorem exec_outcome (i : Instr) (s : State) (hi : ∀ cmd, i ≠ .reservedCommand cmd) :
    (∃ t, exec i s = .next t ∧ Effect i s t) ∨ ∃ w, exec i s = .fault (.uninitialized w) := by
  cases i with
  | terminator => exact .inl ⟨_, rfl, .terminator⟩
  | no => exact .inl ⟨_, rfl, .no⟩
  | lb imm8 => exact execLb_effect imm8 s
  | undefined op => exact .inl ⟨_, rfl, .undefined op⟩
  | stackInit r a0 a1 a2 => exact .inl (execStackInit_effect r a0 a1 a2 s)
  | stackPush r v =>
    refine checked_effect rfl (fun hr hv => .inl ?_)
    obtain rfl : r = true := by simpa [recordOf] using hr
    rcases stackPushCore_cases v s with ⟨ht, e⟩ | ⟨ht, e⟩
    · exact ⟨_, by rw [stackPushBody, e]; rfl, .fails .stackOverflow rfl rfl⟩
    · exact ⟨_, by rw [stackPushBody, e]; rfl, .stackPush hv ht⟩
  | stackPop r =>
    refine checked_effect rfl (fun hr hv => .inl ?_)
    obtain rfl : r = true := by simpa [recordOf] using hr
    by_cases ht : s.stack.top = s.stack.bottom
    · exact ⟨_, if_pos ht, .fails .stackUnderflow rfl rfl⟩
    · exact ⟨_, if_neg ht, .stackPop hv ht⟩
  | stackSize r => exact checked_effect rfl (fun hr _ => .inl ⟨_, rfl, .readsAddr _ rfl hr⟩)
  | stackGetBottom r => exact checked_effect rfl (fun hr _ => .inl ⟨_, rfl, .readsAddr _ rfl hr⟩)
  | stackGetTop r => exact checked_effect rfl (fun hr _ => .inl ⟨_, rfl, .readsAddr _ rfl hr⟩)
  | stackGetTopSentinel r => exact checked_effect rfl (fun hr _ => .inl ⟨_, rfl, .readsAddr _ rfl hr⟩)
  | queueInit r a0 a1 => exact .inl (execQueueInit_effect r a0 a1 s)
  | queuePut r v =>
    refine checked_effect rfl (fun hr hv => .inl ?_)
    obtain rfl : r = true := by simpa [recordOf] using hr
    by_cases ht : nextQ s.queue s.queue.tail = s.queue.head
    · exact ⟨_, if_pos ht, .fails .queueFull rfl rfl⟩
    · exact ⟨_, if_neg ht, .queuePut hv ht⟩
  | queueGet r =>
    refine checked_effect rfl (fun hr hv => .inl ?_)
    obtain rfl : r = true := by simpa [recordOf] using hr
    by_cases ht : s.queue.head = s.queue.tail
    · exact ⟨_, if_pos ht, .fails .queueEmpty rfl rfl⟩
    · exact ⟨_, if_neg ht, .queueGet hv ht⟩
  | queueGetStart r => exact checked_effect rfl (fun hr _ => .inl ⟨_, rfl, .readsAddr _ rfl hr⟩)
  | queueGetEnd r => exact checked_effect rfl (fun hr _ => .inl ⟨_, rfl, .readsAddr _ rfl hr⟩)
  | queueGetHead r => exact checked_effect rfl (fun hr _ => .inl ⟨_, rfl, .readsAddr _ rfl hr⟩)
  | queueGetLastHead r => exact checked_effect rfl (fun hr _ => .inl ⟨_, rfl, .readsAddr _ rfl hr⟩)
  | queueGetTail r => exact checked_effect rfl (fun hr _ => .inl ⟨_, rfl, .readsAddr _ rfl hr⟩)
  | interpInit r sr qr a0 a1 => exact .inl (execInterpInit_effect r sr qr a0 a1 s)
  | interpGetNextBytecode r =>
    refine activeCommand_effect rfl rfl (fun hr hv hs => .inl ?_)
    obtain rfl : r = true := by simpa [recordOf] using hr
    rcases fetchCore_cases s with ⟨_, e⟩ | ⟨hp, _, e⟩
    · exact ⟨_, by rw [getNextBytecodeBody, e]; rfl, .fetchEnds hv hs⟩
    · exact ⟨_, by rw [getNextBytecodeBody, e]; rfl, .fetches hv hs hp⟩
  | interpExec r op =>
    refine activeCommand_effect rfl rfl (fun hr hv hs => ?_)
    obtain rfl : r = true := by simpa [recordOf] using hr
    exact interpExecBody_effect op hv hs
  | interpRun r =>
    refine activeCommand_effect (s := s) (body := fun s => .next { s with runActive := true }) rfl rfl (fun hr hv hs => .inl ?_)
    obtain rfl : r = true := by simpa [recordOf] using hr
    exact ⟨_, rfl, .runStarts hv hs⟩
  | interpGetState r =>
    refine checked_effect rfl (fun hr _ => .inl ?_)
    obtain rfl : r = true := by simpa [recordOf] using hr
    exact ⟨_, rfl, .readsState⟩
  | interpGetPtr r => exact checked_effect rfl (fun hr _ => .inl ⟨_, rfl, .readsAddr _ rfl hr⟩)
  | reservedCommand cmd => exact absurd rfl (hi cmd)

/-- The inversion of exec: a next state is reached by one of the instruction's effects. -/
theorem exec_effect {i : Instr} {s t : State} (h : exec i s = .next t) : Effect i s t := by
  by_cases hi : ∃ cmd, i = .reservedCommand cmd
  · obtain ⟨cmd, rfl⟩ := hi; cases h
  · rcases exec_outcome i s (fun cmd hc => hi ⟨cmd, hc⟩) with ⟨u, e, hu⟩ | ⟨w, e⟩
    · rw [e] at h; cases h; exact hu
    · rw [e] at h; cases h

/-- The opcode fetch of a run: exhaustion, the terminator, or an IL instruction past its opcode byte. -/
theorem fetchInstr_cases (s : State) :
    (s.interp.byteCodePtr = s.interp.byteCodeEnd ∧ fetchInstr s = none) ∨
    (s.interp.byteCodePtr ≠ s.interp.byteCodeEnd ∧ memRead s s.interp.byteCodePtr = 0x00#8 ∧
      fetchInstr s = some (.terminator, s)) ∨
    (s.interp.byteCodePtr ≠ s.interp.byteCodeEnd ∧ memRead s s.interp.byteCodePtr = 0x08#8 ∧
      fetchInstr s = some (.no, advance s)) ∨
    (s.interp.byteCodePtr ≠ s.interp.byteCodeEnd ∧ memRead s s.interp.byteCodePtr = 0x09#8 ∧
      fetchInstr s = some (.lb (byteAtCursor (advance s)), advance s)) ∨
    (s.interp.byteCodePtr ≠ s.interp.byteCodeEnd ∧ isUndefinedOpcode (memRead s s.interp.byteCodePtr) = true ∧
      fetchInstr s = some (.undefined (memRead s s.interp.byteCodePtr), advance s)) := by
  rcases byteAtCursor_cases s with ⟨h, e⟩ | ⟨h, e⟩
  · exact .inl ⟨h, by rw [fetchInstr, bytesAtCursor, e]; rfl⟩
  · refine .inr ?_
    by_cases h0 : memRead s s.interp.byteCodePtr = 0x00#8
    · exact .inl ⟨h, h0, by rw [fetchInstr, bytesAtCursor, e, decodeIL, if_pos h0]⟩
    by_cases h8 : memRead s s.interp.byteCodePtr = 0x08#8
    · exact .inr (.inl ⟨h, h8, by rw [fetchInstr, bytesAtCursor, e, decodeIL, if_neg h0, if_pos h8]⟩)
    by_cases h9 : memRead s s.interp.byteCodePtr = 0x09#8
    · refine .inr (.inr (.inl ⟨h, h9, ?_⟩))
      rw [fetchInstr, bytesAtCursor, e, decodeIL, if_neg h0, if_neg h8, if_pos h9]
      cases byteAtCursor (advance s) <;> rfl
    · refine .inr (.inr (.inr ⟨h, by simp [isUndefinedOpcode, h0, h8, h9], ?_⟩))
      rw [fetchInstr, bytesAtCursor, e, decodeIL, if_neg h0, if_neg h8, if_neg h9]

end Sys2Proof.Machine
end

