-- ==== Sys2Proof/Laws/PerInstr.lean ====
section
/-! SUPPORT. The family EncodingForm: in which of the two encodings an instruction is encoded, and how long it is. -/

namespace Sys2Proof.Laws.EncodingForm

open Sys2Proof.Machine

/-- An IL instruction is encoded in bytes, two for an LB with its operand and one else (R71, R72); every other instruction
as a command on the port, whose CMD value R82 defines unless the instruction is a reserved command (R84). -/
def Statement (i : Instr) : Prop :=
  match encode i with
  | .bytes l => isIl i = true ∧ l.length = if ∃ v, i = .lb (some v) then 2 else 1
  | .port p => isIl i = false ∧ (i.wellFormed = true → (isReservedCmd p.cmd = true ↔ ∃ c, i = .reservedCommand c))

theorem portForm {i : Instr} {cmd : BitVec 8} {ref : BitVec 3} {a0 a1 a2 : Nat} {d : Byte}
    (h : (encode i, isIl i) = (.port { cmd, ref, a0, a1, a2, d }, false)) (hc : isReservedCmd cmd = false)
    (hi : ∀ c, i ≠ .reservedCommand c) : Statement i := by
  obtain ⟨h, h'⟩ := Prod.mk.inj h
  unfold Statement
  rw [h]
  exact ⟨h', fun _ => ⟨fun hr => (by rw [hc] at hr; cases hr), fun ⟨c, e⟩ => absurd e (hi c)⟩⟩

theorem terminator : Statement .terminator := by simp [Statement, encode, isIl]

theorem no : Statement .no := by simp [Statement, encode, isIl]

theorem lb (imm8 : Option Byte) : Statement (.lb imm8) := by
  cases imm8 <;> simp [Statement, encode, isIl]

theorem undefined (op : Byte) : Statement (.undefined op) := by simp [Statement, encode, isIl]

theorem stackInit (r : Bool) (a0 a1 a2 : Nat) : Statement (.stackInit r a0 a1 a2) :=
  portForm rfl (by decide) (fun c h => by cases h)

theorem stackPush (r : Bool) (v : Byte) : Statement (.stackPush r v) :=
  portForm rfl (by decide) (fun c h => by cases h)

theorem stackPop (r : Bool) : Statement (.stackPop r) :=
  portForm rfl (by decide) (fun c h => by cases h)

theorem stackSize (r : Bool) : Statement (.stackSize r) :=
  portForm rfl (by decide) (fun c h => by cases h)

theorem stackGetBottom (r : Bool) : Statement (.stackGetBottom r) :=
  portForm rfl (by decide) (fun c h => by cases h)

theorem stackGetTop (r : Bool) : Statement (.stackGetTop r) :=
  portForm rfl (by decide) (fun c h => by cases h)

theorem stackGetTopSentinel (r : Bool) : Statement (.stackGetTopSentinel r) :=
  portForm rfl (by decide) (fun c h => by cases h)

theorem queueInit (r : Bool) (a0 a1 : Nat) : Statement (.queueInit r a0 a1) :=
  portForm rfl (by decide) (fun c h => by cases h)

theorem queuePut (r : Bool) (v : Byte) : Statement (.queuePut r v) :=
  portForm rfl (by decide) (fun c h => by cases h)

theorem queueGet (r : Bool) : Statement (.queueGet r) :=
  portForm rfl (by decide) (fun c h => by cases h)

theorem queueGetStart (r : Bool) : Statement (.queueGetStart r) :=
  portForm rfl (by decide) (fun c h => by cases h)

theorem queueGetEnd (r : Bool) : Statement (.queueGetEnd r) :=
  portForm rfl (by decide) (fun c h => by cases h)

theorem queueGetHead (r : Bool) : Statement (.queueGetHead r) :=
  portForm rfl (by decide) (fun c h => by cases h)

theorem queueGetLastHead (r : Bool) : Statement (.queueGetLastHead r) :=
  portForm rfl (by decide) (fun c h => by cases h)

theorem queueGetTail (r : Bool) : Statement (.queueGetTail r) :=
  portForm rfl (by decide) (fun c h => by cases h)

theorem interpInit (r sr qr : Bool) (a0 a1 : Nat) : Statement (.interpInit r sr qr a0 a1) :=
  portForm rfl (by decide) (fun c h => by cases h)

theorem interpGetNextBytecode (r : Bool) : Statement (.interpGetNextBytecode r) :=
  portForm rfl (by decide) (fun c h => by cases h)

theorem interpExec (r : Bool) (op : Byte) : Statement (.interpExec r op) :=
  portForm rfl (by decide) (fun c h => by cases h)

theorem interpRun (r : Bool) : Statement (.interpRun r) :=
  portForm rfl (by decide) (fun c h => by cases h)

theorem interpGetState (r : Bool) : Statement (.interpGetState r) :=
  portForm rfl (by decide) (fun c h => by cases h)

theorem interpGetPtr (r : Bool) : Statement (.interpGetPtr r) :=
  portForm rfl (by decide) (fun c h => by cases h)

theorem reservedCommand (cmd : BitVec 8) : Statement (.reservedCommand cmd) :=
  ⟨rfl, fun h => ⟨fun _ => ⟨cmd, rfl⟩, fun _ => h⟩⟩

end Sys2Proof.Laws.EncodingForm
end

