-- ==== Sys2Proof/Laws/Step.lean ====
section
/-! SUPPORT. The inversion of one step. -/

namespace Sys2Proof.Machine

/-- No port transaction decodes to an IL instruction. -/
theorem decodePort_not_il (p : PortInput) : isIl (decodePort p) = false := by
  unfold decodePort
  split <;> rfl

theorem decodeCommand_not_il (aw : Nat) (p : PortInput) : isIl (decodeCommand aw p) = false :=
  decodePort_not_il _

/-- The opcode fetch of a run gives an IL instruction, in the state it found or one byte further. -/
theorem fetchInstr_il {s u : State} {i : Instr} (h : fetchInstr s = some (i, u)) :
    isIl i = true ∧ (u = s ∨ u = advance s) := by
  rcases fetchInstr_cases s with ⟨_, e⟩ | ⟨_, _, e⟩ | ⟨_, _, e⟩ | ⟨_, _, e⟩ | ⟨_, _, e⟩ <;> rw [e] at h <;> cases h
  · exact ⟨rfl, .inl rfl⟩
  all_goals exact ⟨rfl, .inr rfl⟩

/-- How a step reaches a next state. -/
inductive StepEffect (s : State) : State → Prop where
  /-- A run finds exhaustion. -/
  | exhausts (hr : s.runActive = true) (hp : s.interp.byteCodePtr = s.interp.byteCodeEnd) :
      StepEffect s (endRun .ok (stopInterp s))
  /-- A run executes the instruction at the cursor. -/
  | fetched (i : Instr) (u : State) {t : State} (hr : s.runActive = true) (hf : fetchInstr s = some (i, u))
      (he : Effect i u t) : StepEffect s t
  /-- The block waits. -/
  | waits (hr : s.runActive = false) (hp : s.pending = []) : StepEffect s s
  /-- The host's next command. -/
  | command (p : PortInput) (rest : List HostInput) {t : State} (hr : s.runActive = false)
      (hp : s.pending = .command p :: rest)
      (he : Effect (decodeCommand s.config.addrWidth p) { s with pending := rest } t) : StepEffect s t
  /-- The host writes a byte. -/
  | poked (a : Nat) (v : Byte) (rest : List HostInput) (hr : s.runActive = false)
      (hp : s.pending = .poke a v :: rest) : StepEffect s (hostPoke a v { s with pending := rest })
  /-- The reset input. -/
  | wasReset (rest : List HostInput) (hr : s.runActive = false) (hp : s.pending = .reset :: rest) :
      StepEffect s (hostReset { s with pending := rest })

theorem step_effect {s t : State} (h : step s = .next t) : StepEffect s t := by
  unfold step at h
  split at h
  · rename_i hr
    split at h
    · rename_i i u e
      exact .fetched i u hr e (exec_effect h)
    · rename_i e
      cases h
      rcases fetchInstr_cases s with ⟨hp, _⟩ | ⟨_, _, e'⟩ | ⟨_, _, e'⟩ | ⟨_, _, e'⟩ | ⟨_, _, e'⟩
      · exact .exhausts hr hp
      all_goals rw [e'] at e; cases e
  · rename_i hr
    have hr : s.runActive = false := by simpa using hr
    split at h
    · rename_i hp; cases h; exact .waits hr hp
    · rename_i p rest hp; exact .command p rest hr hp (exec_effect h)
    · rename_i a v rest hp; cases h; exact .poked a v rest hr hp
    · rename_i rest hp; cases h; exact .wasReset rest hr hp

/-- The host's next input, where no run is in progress. -/
theorem nextInput_of_pending {s : State} {x : HostInput} {rest : List HostInput} (hr : s.runActive = false)
    (hp : s.pending = x :: rest) : nextInput s = some x := by
  simp [nextInput, hr, hp]

theorem nextInput_of_run {s : State} (hr : s.runActive = true) : nextInput s = none := by
  simp [nextInput, hr]

/-! ### Runs of steps -/

theorem runSteps_zero (s : State) : runSteps 0 s = .next s := rfl

section
variable {s t : State}

theorem runSteps_next (k : Nat) (h : step s = .next t) : runSteps (k + 1) s = runSteps k t := by
  rw [runSteps, h]

theorem runSteps_fault {f : Fault} (k : Nat) (h : step s = .fault f) : runSteps (k + 1) s = .fault f := by
  rw [runSteps, h]

theorem runSteps_refused {f : Refusal} (k : Nat) (h : step s = .refused f) : runSteps (k + 1) s = .refused f := by
  rw [runSteps, h]

theorem runSteps_one (s : State) : runSteps 1 s = step s := by
  cases h : step s with
  | next t => exact runSteps_next 0 h
  | fault f => exact runSteps_fault 0 h
  | refused f => exact runSteps_refused 0 h

/-- A run of `m + n` steps is a run of `n` steps from where the first `m` arrive. -/
theorem runSteps_add {m : Nat} (n : Nat) (h : runSteps m s = .next t) : runSteps (m + n) s = runSteps n t := by
  induction m generalizing s with
  | zero => cases h; rw [Nat.zero_add]
  | succ m ih =>
    rw [Nat.add_right_comm]
    cases hs : step s with
    | next u => rw [runSteps_next _ hs] at h ⊢; exact ih h
    | fault f => rw [runSteps_fault _ hs] at h; cases h
    | refused f => rw [runSteps_refused _ hs] at h; cases h

end

section
variable {M : Host.Core} (k : Nat) {s : M.State}

theorem core_run_next {t : M.State} (h : M.step s = .next t) : M.run (k + 1) s = M.run k t := by
  simp only [Host.Core.run, h]

theorem core_run_fault {f : M.Fault} (h : M.step s = .fault f) : M.run (k + 1) s = .fault f := by
  simp only [Host.Core.run, h]

theorem core_run_refused {r : M.Refusal} (h : M.step s = .refused r) : M.run (k + 1) s = .refused r := by
  simp only [Host.Core.run, h]

end

/-- `runSteps` is the host's own run of the machine. -/
theorem runSteps_eq_run (k : Nat) (s : State) : runSteps k s = Host.Core.run Sys2Proof.core k s := by
  induction k generalizing s with
  | zero => rfl
  | succ k ih =>
    cases h : step s with
    | next t => exact (runSteps_next k h).trans ((ih t).trans (core_run_next (M := core) k h).symm)
    | fault f => exact (runSteps_fault k h).trans (core_run_fault (M := core) k h).symm
    | refused r => exact (runSteps_refused k h).trans (core_run_refused (M := core) k h).symm

end Sys2Proof.Machine
end

