-- ==== Sys2Proof/Tests/Slice0.lean ====
section
/-! SUPPORT. The model's own tests: the WellFormed smoke tests, a word of every encoding of the spec, one or two single
steps per instruction with results from spec/95_test_vectors.md, and a witness for the hypotheses of every statement. -/

namespace Sys2Proof.Tests

open Sys2Proof.Machine

/-! ### Small states -/

/-- MEM with the bytes of a program from 0x0100 on. -/
def programAt (prog : List Byte) : Memory :=
  (List.range prog.length).foldl (fun m i => Memory.write m (0x100 + i) (prog.getD i 0)) []

/-- The standard boot `B(prog, N)` of 95_test_vectors.md section 1. -/
def boot (prog : List Byte) (n : Nat := 4) : State :=
  { State.reset with
    stack := { data := 0x200, bottom := 0x200, topSentinel := 0x200 + n, top := 0x200, valid := true }
    queue := { start := 0x300, stop := 0x303, head := 0x300, tail := 0x300, lastHead := 0x300, valid := true }
    interp := { byteCode := 0x100, byteCodeEnd := 0x100 + prog.length, byteCodePtr := 0x100,
                state := .running, valid := true }
    mem := programAt prog }

/-- The boot of the source's example, L1-5. -/
def b0 : State := boot [0x09, 0x76, 0x00]

/-- `b0` in the state Stopped. -/
def stoppedState : State := setIState .stopped b0

/-- `b0` with a full STACK of four bytes, 0x44 on top (L1-1 step 4), and a full QUEUE holding 0xA1 first (L1-2 step
3). -/
def fullState : State :=
  { b0 with
    stack := { b0.stack with top := 0x204 }
    queue := { b0.queue with tail := 0x303 }
    mem := Memory.write (Memory.write b0.mem 0x203 0x44) 0x300 0xA1 }

/-- An INTERP_RUN of the program in progress. -/
def running (prog : List Byte) (n : Nat := 4) : State := { boot prog n with runActive := true }

/-- The next state of an outcome. -/
def after : Result → Option State
  | .next s => some s
  | .fault _ => none
  | .refused _ => none

/-- The last response of an outcome. -/
def said (r : Result) : Option Response := (after r).bind (fun s => s.responses.head?)

/-- The fault of an outcome. -/
def faultOf : Result → Option Fault
  | .fault f => some f
  | .next _ => none
  | .refused _ => none

/-- The refusal of an outcome. -/
def refusalOf : Result → Option Refusal
  | .refused r => some r
  | .next _ => none
  | .fault _ => none

/-! ### WellFormed -/

theorem test_undefined_excludes_the_defined_bytes :
    (Instr.undefined 0x00#8).wellFormed = false ∧ (Instr.undefined 0x08#8).wellFormed = false ∧
    (Instr.undefined 0x09#8).wellFormed = false ∧ (Instr.undefined 0x07#8).wellFormed = true := by decide

theorem test_reserved_excludes_the_defined_commands :
    (∀ c ∈ [0x00#8, 0x06#8, 0x40#8, 0x47#8, 0x80#8, 0x85#8], (Instr.reservedCommand c).wellFormed = false) ∧
    -- X1 and X2
    (∀ c ∈ [0x07#8, 0x48#8, 0x86#8, 0xC0#8, 0xC1#8, 0x10#8, 0x50#8, 0xFF#8],
      (Instr.reservedCommand c).wellFormed = true) := by decide

/-! ### Decoding: words written out from R70 to R72 and R82, R83, R88 -/

/-- A port word: unit, `00`, operation, then REF, A0, A1, A2, D. -/
def port (unitNo : BitVec 2) (op : BitVec 4) (ref : BitVec 3) (a0 a1 a2 : Nat) (d : Byte) : Encoding :=
  .port { cmd := unitNo ++ 0b00#2 ++ op, ref, a0, a1, a2, d }

def decoded (e : Encoding) : Option Instr :=
  match decode e with
  | .ok i => some i
  | .error _ => none

theorem test_decode_il :
    decoded (.bytes [0b00000000#8]) = some .terminator ∧
    decoded (.bytes [0b00001000#8]) = some .no ∧
    decoded (.bytes [0b00001001#8, 0b01110110#8]) = some (.lb (some 0x76#8)) ∧
    decoded (.bytes [0b00001001#8]) = some (.lb none) ∧
    decoded (.bytes [0b00000111#8]) = some (.undefined 0x07#8) ∧
    decoded (.bytes [0b11111111#8]) = some (.undefined 0xFF#8) ∧
    decoded (.bytes []) = none := by decide

theorem test_decode_stack :
    decoded (port 0b00 0b0000 0b001 0x200 0x204 0x201 0) = some (.stackInit true 0x200 0x204 0x201) ∧
    decoded (port 0b00 0b0001 0b001 0 0 0 0x42) = some (.stackPush true 0x42) ∧
    decoded (port 0b00 0b0010 0b001 0 0 0 0) = some (.stackPop true) ∧
    decoded (port 0b00 0b0011 0b001 0 0 0 0) = some (.stackSize true) ∧
    decoded (port 0b00 0b0100 0b001 0 0 0 0) = some (.stackGetBottom true) ∧
    decoded (port 0b00 0b0101 0b001 0 0 0 0) = some (.stackGetTop true) ∧
    decoded (port 0b00 0b0110 0b110 0 0 0 0) = some (.stackGetTopSentinel false) := by decide

theorem test_decode_queue :
    decoded (port 0b01 0b0000 0b001 0x300 0x303 0 0) = some (.queueInit true 0x300 0x303) ∧
    decoded (port 0b01 0b0001 0b001 0 0 0 0x61) = some (.queuePut true 0x61) ∧
    decoded (port 0b01 0b0010 0b001 0 0 0 0) = some (.queueGet true) ∧
    decoded (port 0b01 0b0011 0b001 0 0 0 0) = some (.queueGetStart true) ∧
    decoded (port 0b01 0b0100 0b001 0 0 0 0) = some (.queueGetEnd true) ∧
    decoded (port 0b01 0b0101 0b001 0 0 0 0) = some (.queueGetHead true) ∧
    decoded (port 0b01 0b0110 0b001 0 0 0 0) = some (.queueGetLastHead true) ∧
    decoded (port 0b01 0b0111 0b001 0 0 0 0) = some (.queueGetTail true) := by decide

theorem test_decode_interp :
    decoded (port 0b10 0b0000 0b101 0x100 0x103 0 0) = some (.interpInit true false true 0x100 0x103) ∧
    decoded (port 0b10 0b0001 0b001 0 0 0 0) = some (.interpGetNextBytecode true) ∧
    decoded (port 0b10 0b0010 0b001 0 0 0 0x09) = some (.interpExec true 0x09) ∧
    decoded (port 0b10 0b0011 0b001 0 0 0 0) = some (.interpRun true) ∧
    decoded (port 0b10 0b0100 0b001 0 0 0 0) = some (.interpGetState true) ∧
    decoded (port 0b10 0b0101 0b001 0 0 0 0) = some (.interpGetPtr true) ∧
    decoded (port 0b10 0b0110 0b001 0 0 0 0) = some (.reservedCommand 0x86) ∧
    decoded (port 0b11 0b0001 0b001 0 0 0 0) = some (.reservedCommand 0xC1) := by decide

theorem test_decode_table_words :
    decodeTableWord 8 0x08 = some .no ∧ decodeTableWord 16 0x7609 = some (.lb (some 0x76)) ∧
    decodeTableWord 16 0x0000 = some .terminator ∧ decodeTableWord 8 0x0A = some (.undefined 0x0A) ∧
    decodeTableWord 8 0x01 = some (.stackPush false 0) ∧ decodeTableWord 8 0x47 = some (.queueGetTail false) ∧
    decodeTableWord 8 0x83 = some (.interpRun false) ∧ decodeTableWord 67 0xC1 = some (.reservedCommand 0xC1) ∧
    decodeTableWord 8 0x00 = some (.stackInit false 0 0 0) := by decide

/-- R83 and R88, packed as log 14 says: STACK_PUSH of 0x42 with `REF[0]` set. -/
theorem test_decode_packed_port_word :
    decodeTableWord 67 (0x42 * 2 ^ 59 + 0b001 * 2 ^ 8 + 0x01) = some (.stackPush true 0x42) := by decide

theorem test_with_fetch_word :
    said (step (State.reset.withFetchWord 8 0x01)) = some nullResponse ∧
    (after (step (State.reset.withFetchWord 8 0x08))).map (fun s => (s.interp.byteCodePtr, s.interp.state))
      = some (0x0001, .running) ∧
    said (step (State.reset.withFetchWord 16 0x0000)) = some okResponse ∧
    faultOf (step (State.reset.withFetchWord 16 0x0509)) = some (.uninitialized .stack) ∧
    refusalOf (step (State.reset.withFetchWord 67 0xFF)) = some (.reservedCmd 0xFF) := by decide

/-- R7 and R80: with `AW` = 8 the port carries the low 8 bits of each address, and a host write reaches one of 256
bytes. -/
theorem test_address_width_is_a_parameter :
    let s := { State.reset with config := { Config.default with addrWidth := 8 } }
    let queueInit : PortInput := { cmd := 0x40, ref := 1, a0 := 0x0120, a1 := 0x0130, a2 := 0, d := 0 }
    (after (step { s with pending := [.command queueInit] })).map (fun t => (t.queue.start, t.queue.stop, t.queue.valid))
      = some (0x20, 0x30, true) ∧
    (after (step { s with pending := [.poke 0x1FF 0x5A] })).map (fun t => Memory.read t.mem 0xFF) = some 0x5A := by decide

/-! ### IL instructions, one step of a run each (95_test_vectors.md section 3.4) -/

/-- O1. -/
theorem test_terminator :
    (after (step (running [0x00]))).map (fun s => (s.interp.state, s.interp.byteCodePtr, s.runActive))
      = some (.stopped, 0x100, false) ∧ said (step (running [0x00])) = some okResponse := by decide

/-- L1-11: NO takes no operand. -/
theorem test_no :
    (after (step (running [0x08, 0x09, 0x11, 0x00]))).map (fun s => (s.interp.state, s.interp.byteCodePtr, s.stack))
      = some (.running, 0x101, b0.stack) := by decide

/-- L1-12. -/
theorem test_lb_pushes :
    (after (step (running [0x09, 0x76, 0x00]))).map
      (fun s => (s.interp.byteCodePtr, s.stack.top, Memory.read s.mem 0x200, s.interp.state))
      = some (0x102, 0x201, 0x76, .running) := by decide

/-- O6 and O7: a zero operand, under both values of LB_ZERO_OPERAND. -/
theorem test_lb_zero_operand :
    (after (step (running [0x09, 0x00, 0x09, 0x05]))).map (fun s => (s.interp.byteCodePtr, s.interp.state, s.stack.top))
      = some (0x101, .stopped, 0x200) ∧
    (after (step { running [0x09, 0x00, 0x09, 0x05] with
        config := { Config.default with lbZeroOperand := .pushesZero } })).map
      (fun s => (s.interp.byteCodePtr, s.interp.state, s.stack.top)) = some (0x102, .running, 0x201) := by decide

/-- O9. -/
theorem test_undefined :
    (after (step (running [0x07]))).map (fun s => (s.interp.state, s.interp.byteCodePtr))
      = some (.executingInstruction, 0x101) ∧
    said (step (running [0x07])) = some (failResponse .instructionNotFound 3) := by decide

/-! ### Commands, one step each (95_test_vectors.md sections 2 and 3) -/

/-- S6, S8: `data` is not checked; a failing init leaves the STACK. -/
theorem test_stack_init :
    (after (exec (.stackInit true 0x300 0x204 0x200) State.reset)).map (fun s => (s.stack.data, s.stack.top, s.stack.valid))
      = some (0x300, 0x200, true) ∧
    (after (exec (.stackInit true 0x400 0x400 0x400) fullState)).map (·.stack) = some fullState.stack := by decide

/-- S3: the null test precedes the bound test. -/
theorem test_stack_init_null_first :
    said (exec (.stackInit true 0x200 0x204 0x000) State.reset) = some (failResponse .nullPointer 1) := by decide

/-- L1-1 steps 1 and 5, S10. -/
theorem test_stack_push :
    (after (exec (.stackPush true 0x11) b0)).map (fun s => (s.stack.top, Memory.read s.mem 0x200)) = some (0x201, 0x11) ∧
    said (exec (.stackPush true 0x55) fullState) = some (failResponse .stackOverflow 2) ∧
    faultOf (exec (.stackPush true 1) State.reset) = some (.uninitialized .stack) := by decide

/-- L1-1 steps 6 and 10. -/
theorem test_stack_pop :
    said (exec (.stackPop true) fullState) = some (byteResponse 0x44) ∧
    (after (exec (.stackPop true) fullState)).map (·.stack.top) = some 0x203 ∧
    said (exec (.stackPop true) b0) = some (failResponse .stackUnderflow 2) := by decide

/-- S18. -/
theorem test_stack_accessors :
    said (exec (.stackSize true) fullState) = some (addrResponse 4) ∧
    said (exec (.stackGetBottom true) fullState) = some (addrResponse 0x200) ∧
    said (exec (.stackGetTop true) fullState) = some (addrResponse 0x204) ∧
    said (exec (.stackGetTopSentinel true) fullState) = some (addrResponse 0x204) := by decide

/-- Q2, Q3, Q5. -/
theorem test_queue_init :
    said (exec (.queueInit true 0x304 0x303) State.reset) = some (failResponse .invalidArguments 2) ∧
    (after (exec (.queueInit true 0x320 0x320) State.reset)).map (fun s => (s.queue.tail, s.queue.lastHead))
      = some (0x320, 0x320) ∧
    said (exec (.queueInit true 0x000 0x003) State.reset) = some okResponse := by decide

/-- The state of Q10: a QUEUE of length 3 whose tail stands at its end. -/
def q10 : State :=
  { b0 with
    queue := { start := 0x310, stop := 0x312, head := 0x311, tail := 0x312, lastHead := 0x310, valid := true }
    mem := Memory.write (Memory.write b0.mem 0x310 1) 0x311 2 }

/-- Q10, Q17. -/
theorem test_queue_put :
    (after (exec (.queuePut true 3) q10)).map (fun s => (s.queue.tail, s.queue.lastHead, Memory.read s.mem 0x312))
      = some (0x310, 0x312, 3) ∧
    said (exec (.queuePut true 0xEE) fullState) = some (failResponse .queueFull 2) := by decide

/-- L1-2 steps 5 and 8. -/
theorem test_queue_get :
    said (exec (.queueGet true) fullState) = some (byteResponse 0xA1) ∧
    (after (exec (.queueGet true) fullState)).map (·.queue.head) = some 0x301 ∧
    said (exec (.queueGet true) b0) = some (failResponse .queueEmpty 2) := by decide

/-- Q14, on the state of Q10. -/
theorem test_queue_accessors :
    said (exec (.queueGetStart true) q10) = some (addrResponse 0x310) ∧
    said (exec (.queueGetEnd true) q10) = some (addrResponse 0x312) ∧
    said (exec (.queueGetHead true) q10) = some (addrResponse 0x311) ∧
    said (exec (.queueGetLastHead true) q10) = some (addrResponse 0x310) ∧
    said (exec (.queueGetTail true) q10) = some (addrResponse 0x312) := by decide

/-- I1, I5, L1-8. -/
theorem test_interp_init :
    said (exec (.interpInit true true false 0x100 0x103) State.reset) = some (failResponse .nullPointer 1) ∧
    (after (exec (.interpInit true true true 0x100 0x101) State.reset)).map
      (fun s => (s.interp.byteCodePtr, s.interp.state, s.stack.valid)) = some (0x100, .running, false) ∧
    said (exec (.interpInit true true true 0x100 0x100) State.reset) = some (failResponse .invalidArguments 2) := by
  decide

/-- I12, L1-6 step 4. -/
theorem test_get_next_bytecode :
    said (exec (.interpGetNextBytecode true) (boot [0x07, 0x00])) = some (byteResponse 0x07) ∧
    (after (exec (.interpGetNextBytecode true) (boot [0x07, 0x00]))).map (·.interp.byteCodePtr) = some 0x101 ∧
    said (exec (.interpGetNextBytecode true) stoppedState) = some (failResponse .stopped 5) := by decide

/-- I13. -/
theorem test_exec_lb :
    (after (exec (.interpExec true 0x09) (boot [0x55, 0x00]))).map
      (fun s => (Memory.read s.mem 0x200, s.stack.top, s.interp.byteCodePtr, s.interp.state))
      = some (0x55, 0x201, 0x101, .running) := by decide

/-- I15 (0x00 is no terminator here), L1-9. -/
theorem test_exec_undefined :
    said (exec (.interpExec true 0x00) b0) = some (failResponse .instructionNotFound 3) ∧
    (after (exec (.interpExec true 0x00) b0)).map (·.interp.state) = some .executingInstruction ∧
    said (exec (.interpExec true 0x09) stoppedState) = some (failResponse .stopped 5) := by decide

/-- I24, L1-7 step 2. -/
theorem test_run :
    (after (exec (.interpRun true) b0)).map (·.runActive) = some true ∧
    said (exec (.interpRun false) stoppedState) = some (failResponse .nullPointer 1) ∧
    said (exec (.interpRun true) stoppedState) = some (failResponse .stopped 5) := by decide

/-- I9, I22. -/
theorem test_interp_accessors :
    said (exec (.interpGetState true) stoppedState) = some (byteResponse 1) ∧
    said (exec (.interpGetPtr true) stoppedState) = some (addrResponse 0x100) ∧
    faultOf (exec (.interpGetState true) State.reset) = some (.uninitialized .interp) := by decide

/-- X2: refused, not NullPointer and not a fault. -/
theorem test_reserved_command :
    refusalOf (exec (.reservedCommand 0xC1) State.reset) = some (.reservedCmd 0xC1) := by decide

/-! ### Witnesses: a state and operands that meet the hypotheses of each statement, for each of its clauses -/

/-- A state with one host input to come. -/
def offered (x : HostInput) (s : State) : State := { s with pending := [x] }

/-- A port transaction with every input set to something. -/
def fullPort (cmd : BitVec 8) : PortInput := { cmd, ref := 0b111, a0 := 0x1234, a1 := 0x5678, a2 := 0x9ABC, d := 0x33 }

theorem inv_boot : Inv b0 ∧ Inv (boot [0x09]) ∧ Inv (boot [0x08, 0x08] 1) :=
  ⟨⟨by decide, by decide, by decide, by decide, by decide, by decide, by decide⟩,
    ⟨by decide, by decide, by decide, by decide, by decide, by decide, by decide⟩,
    ⟨by decide, by decide, by decide, by decide, by decide, by decide, by decide⟩⟩

theorem inv_full : Inv fullState := ⟨by decide, by decide, by decide, by decide, by decide, by decide, by decide⟩

theorem inv_stopped : Inv stoppedState := ⟨by decide, by decide, by decide, by decide, by decide, by decide, by decide⟩

theorem inv_q10 : Inv q10 := ⟨by decide, by decide, by decide, by decide, by decide, by decide, by decide⟩

theorem inv_running : Inv (running [0x09, 0x76, 0x00]) ∧ Inv (running [0x07]) ∧ Inv (running [0x00]) :=
  ⟨⟨by decide, by decide, by decide, by decide, by decide, by decide, by decide⟩,
    ⟨by decide, by decide, by decide, by decide, by decide, by decide, by decide⟩,
    ⟨by decide, by decide, by decide, by decide, by decide, by decide, by decide⟩⟩

/-- The host's inputs still to come are no part of the invariant. -/
theorem inv_pending {s : State} (h : Inv s) (l : List HostInput) : Inv { s with pending := l } :=
  ⟨h.stack, h.queue, h.interp, h.width, h.mem, h.config, h.run⟩

theorem witness_DecodeOfEncodeIsTheInstruction :
    ∀ i ∈ [Instr.undefined 0x01, .undefined 0xFF, .reservedCommand 0x07, .reservedCommand 0xFF, .lb (some 0),
      .interpInit true false true 0xFFFF 0x0000], i.wellFormed = true := by decide

theorem witness_DecodingIsTotalAndWellFormed :
    decoded (.bytes [0xFF]) = some (.undefined 0xFF) ∧ decoded (.port (fullPort 0xFF)) = some (.reservedCommand 0xFF) ∧
    (fullPort 0xFF).fits 16 = true ∧ (fullPort 0xFF).fits 15 = false := by decide

theorem witness_FirstByteSelectsInstructionAndLength :
    ∀ op ∈ [0x01#8, 0x07#8, 0x0A#8, 0xFF#8], op ≠ 0x00#8 ∧ op ≠ 0x08#8 ∧ op ≠ 0x09#8 := by decide

/-- S19: two pushes that differ in every input a push does not use; and the commands whose inputs all count. -/
theorem witness_UnusedPortInputsAreIgnored :
    (let p := fullPort 0x01
      let q : PortInput := { cmd := 0x01, ref := 0b001, a0 := 0, a1 := 0, a2 := 0, d := 0x33 }
      p.cmd = q.cmd ∧ p.ref.getLsbD 0 = q.ref.getLsbD 0 ∧ (p.cmd = 0x80#8 → p.ref = q.ref) ∧
      (p.cmd = 0x00#8 ∨ p.cmd = 0x40#8 ∨ p.cmd = 0x80#8 → p.a0 = q.a0 ∧ p.a1 = q.a1) ∧
      (p.cmd = 0x00#8 → p.a2 = q.a2) ∧ (p.cmd = 0x01#8 ∨ p.cmd = 0x41#8 ∨ p.cmd = 0x82#8 → p.d = q.d)) ∧
    (let p := fullPort 0x80
      let q : PortInput := { cmd := 0x80, ref := 0b111, a0 := 0x1234, a1 := 0x5678, a2 := 0, d := 0 }
      p.cmd = q.cmd ∧ p.ref.getLsbD 0 = q.ref.getLsbD 0 ∧ (p.cmd = 0x80#8 → p.ref = q.ref) ∧
      (p.cmd = 0x00#8 ∨ p.cmd = 0x40#8 ∨ p.cmd = 0x80#8 → p.a0 = q.a0 ∧ p.a1 = q.a1) ∧
      (p.cmd = 0x00#8 → p.a2 = q.a2) ∧ (p.cmd = 0x01#8 ∨ p.cmd = 0x41#8 ∨ p.cmd = 0x82#8 → p.d = q.d)) := by decide

theorem witness_InvariantHoldsAtReset : ConfigInv Config.default := by decide

/-- A transaction whose addresses have the port's width, at the default `AW` and at `AW` = 24. -/
theorem witness_StepRunsTheNextCommand :
    ∀ aw ∈ [16, 24],
      let s := { offered (.command (fullPort 0x40)) b0 with config := { b0.config with addrWidth := aw } }
      s.runActive = false ∧ s.pending = .command (fullPort 0x40) :: [] ∧
        (fullPort 0x40).fits s.config.addrWidth = true := by decide

/-- An LB with its operand, an LB that is the last byte, and a terminator. -/
theorem witness_StepRunsTheFetchedInstruction :
    ∀ x ∈ [([0x09#8, 0x76#8], Instr.lb (some 0x76)), ([0x09#8], .lb none), ([0x00#8], .terminator), ([0x07#8, 0x01#8], .undefined 0x07)],
      let s := running x.1
      s.runActive = true ∧ s.interp.byteCodePtr ≠ s.interp.byteCodeEnd ∧
      (match decodeIL (memRead s s.interp.byteCodePtr ::
          (if s.interp.byteCodePtr + 1 = s.interp.byteCodeEnd then []
            else [memRead s (s.interp.byteCodePtr + 1)])) with
        | .ok (i, _) => some i
        | .error _ => none) = some x.2 := by decide

theorem witness_StepEndsTheRunAtExhaustion :
    let s := setCursor 0x103 (running [0x09, 0x76, 0x00])
    s.runActive = true ∧ s.interp.byteCodePtr = s.interp.byteCodeEnd := by decide

theorem witness_StepTakesHostWritesAndReset :
    b0.runActive = false ∧ b0.pending = [] ∧
    (offered (.poke 0xFFFF 0x5A) b0).pending = [.poke 0xFFFF 0x5A] ∧ (offered .reset b0).pending = [.reset] := by decide

/-- The port forms of the commands whose statements begin with the decoding. -/
theorem witness_command_forms :
    ∀ c ∈ [0x00#8, 0x01#8, 0x02#8, 0x03#8, 0x04#8, 0x05#8, 0x06#8, 0x40#8, 0x41#8, 0x42#8, 0x43#8, 0x44#8, 0x45#8, 0x46#8,
      0x47#8, 0x80#8, 0x81#8, 0x82#8, 0x83#8, 0x84#8, 0x85#8], (fullPort c).cmd = c := by decide

/-- Equal bounds, inverted bounds, and capacity 1 (L1-4). -/
theorem witness_StackInitBindsItsRegion :
    (0x0200) ≤ (0x0200) ∧ (0x01FF) ≤ (0x0200) ∧
    (0x0200) < (0x0201) ∧ (0x0200) ≠ 0 ∧ (0x0201) ≠ 0 := by decide

theorem witness_StackPushStoresAtTop :
    State.reset.stack.valid = false ∧
    (fullState.stack.valid = true ∧ fullState.stack.top = fullState.stack.topSentinel) ∧
    (b0.stack.valid = true ∧ b0.stack.top ≠ b0.stack.topSentinel) := by decide

theorem witness_StackPopReturnsTheTopByte :
    State.reset.stack.valid = false ∧
    (b0.stack.valid = true ∧ b0.stack.top = b0.stack.bottom) ∧
    (fullState.stack.valid = true ∧ fullState.stack.top ≠ fullState.stack.bottom) := by decide

theorem witness_StackSizeAndAccessorsReturnRegisters :
    State.reset.stack.valid = false ∧ b0.stack.valid = true ∧ StackInv b0.stack := by decide

/-- Inverted bounds, and the region of length 1 (Q3). -/
theorem witness_QueueInitBindsItsRegion :
    (0x0303) < (0x0304) ∧ (0x0320) ≤ (0x0320) := by decide

/-- No QUEUE; a full one, whose tail stands at the end; one with room, at the end and elsewhere. -/
theorem witness_QueuePutAppendsAtTail :
    State.reset.queue.valid = false ∧ State.reset.config.lastHeadRule = .endOnWrap ∧
    (fullState.queue.valid = true ∧ fullState.queue.tail = fullState.queue.stop ∧
      fullState.queue.start = fullState.queue.head) ∧
    (q10.queue.valid = true ∧ q10.queue.tail = q10.queue.stop ∧ q10.queue.start ≠ q10.queue.head) ∧
    (b0.queue.valid = true ∧ b0.queue.tail ≠ b0.queue.stop ∧ b0.queue.tail + 1 ≠ b0.queue.head) := by decide

theorem witness_QueueGetTakesFromHead :
    State.reset.queue.valid = false ∧ (b0.queue.valid = true ∧ b0.queue.head = b0.queue.tail) ∧
    (fullState.queue.valid = true ∧ fullState.queue.head ≠ fullState.queue.tail) ∧
    (let q := { q10.queue with head := 0x312, tail := 0x310 };
      q.valid = true ∧ q.head = q.stop ∧ q.head ≠ q.tail) := by decide

theorem witness_QueueAccessorsReturnRegisters :
    State.reset.queue.valid = false ∧ b0.queue.valid = true := by decide

/-- Length zero, inverted, and length 1. -/
theorem witness_InterpInitBindsItsRegion :
    (0x0100) ≤ (0x0100) ∧ (0x0100) ≤ (0x0103) ∧
    (0x0000) < (0x0001) := by decide

/-- For the commands that fetch or execute: no INTERP, one that is Stopped, and one at exhaustion, at a terminator and at
another byte. -/
theorem witness_fetch_states :
    State.reset.interp.valid = false ∧
    (stoppedState.interp.valid = true ∧ stoppedState.interp.state = .stopped) ∧
    (let s := setCursor 0x103 b0;
      s.interp.valid = true ∧ s.interp.state ≠ .stopped ∧ s.interp.byteCodePtr = s.interp.byteCodeEnd) ∧
    (let s := setCursor 0x102 b0;
      s.interp.valid = true ∧ s.interp.state ≠ .stopped ∧ s.interp.byteCodePtr ≠ s.interp.byteCodeEnd ∧
        memRead s s.interp.byteCodePtr = 0x00#8) ∧
    (b0.interp.valid = true ∧ b0.interp.state ≠ .stopped ∧ b0.interp.byteCodePtr ≠ b0.interp.byteCodeEnd ∧
      memRead b0 b0.interp.byteCodePtr ≠ 0x00#8) := by decide

theorem witness_ExecOfNoAndOfUndefinedOpcodes :
    b0.interp.valid = true ∧ b0.interp.state ≠ .stopped ∧ (0x00#8 ≠ 0x08#8 ∧ 0x00#8 ≠ 0x09#8) := by decide

/-- The cursor on the operand 0x76, with no STACK, a full STACK, and room. -/
theorem witness_ExecOfLbPushesTheByteAtTheCursor :
    (setCursor 0x102 b0).config.lbZeroOperand = .terminates ∧
    (∀ s ∈ [setCursor 0x101 { b0 with stack := StackRegs.reset }, setCursor 0x101 fullState, setCursor 0x101 b0],
      s.interp.valid = true ∧ s.interp.state ≠ .stopped ∧ s.interp.byteCodePtr ≠ s.interp.byteCodeEnd ∧
        memRead s s.interp.byteCodePtr ≠ 0x00#8) ∧
    StackRegs.reset.valid = false ∧ fullState.stack.top = fullState.stack.topSentinel ∧
    b0.stack.top ≠ b0.stack.topSentinel := by decide

/-- Each of the three states of the interpreter. -/
theorem witness_InterpAccessorsReturnStateAndCursor :
    State.reset.interp.valid = false ∧
    ∀ x ∈ [IState.running, .stopped, .executingInstruction],
      (setIState x b0).interp.valid = true ∧ (setIState x b0).interp.state = x := by decide

/-- No operand byte, a zero one under both rules, and another; no STACK, a full one, and room. -/
theorem witness_LbPushesItsLiteral :
    b0.config.lbZeroOperand = .terminates ∧ (0x01#8 ≠ 0x00#8) ∧
    { b0.config with lbZeroOperand := .pushesZero }.lbZeroOperand = .pushesZero ∧
    State.reset.stack.valid = false ∧
    (fullState.stack.valid = true ∧ fullState.stack.top = fullState.stack.topSentinel) ∧
    (b0.stack.valid = true ∧ b0.stack.top ≠ b0.stack.topSentinel) := by decide

theorem witness_OtherInstructionsLeaveMemory :
    storeAddr fullState (.stackPop true) = none ∧ storeAddr b0 (.interpExec true 0x08) = none ∧
    (∃ t, exec (.stackPop true) fullState = .next t) ∧ ∃ t, exec (.interpExec true 0x08) b0 = .next t :=
  ⟨rfl, rfl, ⟨_, rfl⟩, ⟨_, rfl⟩⟩

/-- STACK_PUSH, QUEUE_PUT, LB and an INTERP_EXEC of LB. -/
theorem witness_StoresChangeOneByte :
    Memory.wf b0.config.addrWidth b0.mem = true ∧
    (storeAddr b0 (.stackPush true 7) = some 0x200 ∧ ∃ t, exec (.stackPush true 7) b0 = .next t) ∧
    (storeAddr b0 (.queuePut true 7) = some 0x300 ∧ ∃ t, exec (.queuePut true 7) b0 = .next t) ∧
    (storeAddr b0 (.lb (some 7)) = some 0x200 ∧ ∃ t, exec (.lb (some 7)) b0 = .next t) ∧
    (storeAddr b0 (.interpExec true 0x09) = some 0x200 ∧ ∃ t, exec (.interpExec true 0x09) b0 = .next t) :=
  ⟨by decide, ⟨rfl, _, rfl⟩, ⟨rfl, _, rfl⟩, ⟨rfl, _, rfl⟩, ⟨rfl, _, rfl⟩⟩

/-- One instruction for each clause. -/
theorem witness_InstructionsKeepOtherUnits :
    (isStackCommand (.stackPop true) = true ∧ ∃ t, exec (.stackPop true) fullState = .next t) ∧
    (isQueueCommand (.queueGet true) = true ∧ ∃ t, exec (.queueGet true) fullState = .next t) ∧
    (isStackCommand .no = false ∧ isQueueCommand .no = false ∧ storeAddr b0 .no = none ∧ ∃ t, exec .no b0 = .next t) :=
  ⟨⟨rfl, _, rfl⟩, ⟨rfl, _, rfl⟩, rfl, rfl, rfl, _, rfl⟩

/-- A full push, a failing fetch, and an undefined opcode in a run. -/
theorem witness_FailuresKeepUnitsAndMemory :
    (said (exec (.stackPush true 7) fullState)).map (·.kind) = some .stackOverflow ∧
    (said (exec (.interpGetNextBytecode true) (setCursor 0x103 b0))).map (·.kind) = some .endOfProgram ∧
    (said (exec (.undefined 0x07) (running [0x07]))).map (·.kind) = some .instructionNotFound := by decide

theorem witness_OnlyResetClearsValidBits :
    (∃ t, step (offered (pushInput 7) b0) = .next t) ∧ nextInput (offered (pushInput 7) b0) ≠ some .reset ∧
    b0.stack.valid = true ∧ b0.queue.valid = true ∧ b0.interp.valid = true := ⟨⟨_, rfl⟩, by decide⟩

/-- An INTERP_INIT in the state Stopped. -/
theorem witness_OnlyInterpInitLeavesStopped :
    let s := offered (.command { cmd := 0x80, ref := 7, a0 := 0x100, a1 := 0x103, a2 := 0, d := 0 }) stoppedState
    Inv s ∧ s.interp.state = .stopped ∧ ∃ t, step s = .next t ∧ t.interp.state ≠ .stopped :=
  ⟨inv_pending inv_stopped _, rfl, _, rfl, by decide⟩

/-- A QUEUE_PUT, a STACK_PUSH, and an LB. -/
theorem witness_WritesStayInsideTheRegions :
    Inv b0 ∧
    (∃ t, exec (.queuePut true 7) b0 = .next t ∧ memRead t 0x300 ≠ memRead b0 0x300) ∧
    (∃ t, exec (.stackPush true 7) b0 = .next t ∧ memRead t 0x200 ≠ memRead b0 0x200) ∧
    (∃ t, exec (.lb (some 7)) b0 = .next t ∧ memRead t 0x200 ≠ memRead b0 0x200) :=
  ⟨inv_boot.1, ⟨_, rfl, by decide⟩, ⟨_, rfl, by decide⟩, ⟨_, rfl, by decide⟩⟩

/-- Two states with different `Q.last_head` and different rules. -/
theorem witness_LastHeadDecidesNothing :
    let s := offered getInput fullState
    let t := { s with
      queue := { s.queue with lastHead := 0x302 }
      config := { s.config with lastHeadRule := .other } }
    s ≠ t ∧ blankLastHead s = blankLastHead t ∧
    ∀ p, nextInput s = some (.command p) → decodeCommand s.config.addrWidth p ≠ .queueGetLastHead true :=
  ⟨by decide, by decide, fun p h => by cases h; decide⟩

theorem witness_DataAndByteCodeAreNeverRead :
    let s := offered popInput fullState
    let t := { s with stack := { s.stack with data := 0x1 }, interp := { s.interp with byteCode := 0xFF } }
    s ≠ t ∧ blankUnread s = blankUnread t := by decide

/-- Each unit, and an LB. -/
theorem witness_FaultsAreUsesOfUninitializedUnits :
    (∀ i ∈ [Instr.stackPop true, .lb (some 7)], faultOf (exec i State.reset) = some (.uninitialized .stack)) ∧
    faultOf (exec (.queueGet true) State.reset) = some (.uninitialized .queue) ∧
    faultOf (exec (.interpRun true) State.reset) = some (.uninitialized .interp) ∧
    faultOf (exec (.interpExec true 0x09) { b0 with stack := StackRegs.reset }) = some (.uninitialized .stack) := by
  decide

theorem witness_InitializedUnitsAlwaysAnswer :
    (∀ u, ¬ usesUninitialized (.stackPop true) b0 u) ∧ (∀ u, ¬ usesUninitialized (.stackPop false) State.reset u) ∧
    (∀ u, ¬ usesUninitialized (.lb (some 7)) b0 u) ∧ (∀ u, ¬ usesUninitialized (.lb none) State.reset u) ∧
    ∀ cmd, Instr.stackPop true ≠ .reservedCommand cmd :=
  ⟨fun _ h => Bool.noConfusion h.2.1, fun _ h => Bool.noConfusion h.1, fun _ h => Bool.noConfusion h.2.1,
    fun _ h => h.1.elim (fun _ h => nomatch h.1), fun _ h => Instr.noConfusion h⟩

theorem witness_NullReferenceDecidesFirst :
    recordOf (.stackPush false 7) = some false ∧ recordOf (.interpRun false) = some false := by decide

/-- A command that completes, one that starts a run, an iteration that goes on, and an idle step. -/
theorem witness_EachCommandCompletesWithOneResponse :
    (∃ t, step (offered popInput fullState) = .next t) ∧ (∃ t, step (offered (plainCommand 0x83 0) b0) = .next t) ∧
    (∃ t, step (running [0x08]) = .next t) ∧ ∃ t, step b0 = .next t :=
  ⟨⟨_, rfl⟩, ⟨_, rfl⟩, ⟨_, rfl⟩, ⟨_, rfl⟩⟩

theorem witness_ResponsesAreOfTheRuledForm :
    fullState.config.interpCode.wf = true ∧
    (∃ t r, exec (.stackPush true 7) fullState = .next t ∧ t.responses = r :: fullState.responses) ∧
    ∃ t r, exec (.undefined 0x07) fullState = .next t ∧ t.responses = r :: fullState.responses :=
  ⟨by decide, ⟨_, _, rfl, rfl⟩, _, _, rfl, rfl⟩

/-- X3, X5, and R225: a CODE outside the command's mapping is Unknown to the host. -/
theorem test_host_kind :
    hostKind Config.default.interpCode (.stackPush true 0) 2 = .stackOverflow ∧
    hostKind Config.default.interpCode (.interpRun true) 3 = .instructionNotFound ∧
    hostKind Config.default.interpCode (.stackSize true) 2 = .unknown ∧
    hostKind Config.default.interpCode (.queueGet true) 6 = .unknown := by decide

/-- The STACK full and empty, the QUEUE's cursors at both ends of the region, the cursor before the end. -/
theorem witness_AddressComputationsNeverWrap :
    Inv b0 ∧ Inv fullState ∧ b0.stack.top ≠ b0.stack.topSentinel ∧ fullState.stack.top ≠ fullState.stack.bottom ∧
    inStackRegion b0.stack 0x203 ∧ inQueueRegion b0.queue 0x303 ∧ inQueueRegion b0.queue 0x300 ∧
    b0.interp.byteCodePtr ≠ b0.interp.byteCodeEnd := ⟨inv_boot.1, inv_full, by decide⟩

theorem witness_EveryStepKeepsTheInvariant :
    (Inv (offered popInput fullState) ∧ ∃ t, step (offered popInput fullState) = .next t) ∧
    (Inv (running [0x07]) ∧ ∃ t, step (running [0x07]) = .next t) :=
  ⟨⟨inv_pending inv_full _, _, rfl⟩, inv_running.2.1, _, rfl⟩

theorem witness_MemoryReadsTheLatestWriteAndIsCanonical :
    Memory.wf 16 b0.mem = true ∧ Memory.wf 16 fullState.mem = true ∧ b0.mem ≠ fullState.mem := by decide

/-- Full, with room, empty, and holding one byte. -/
theorem witness_StackRefinesABoundedList :
    (Inv fullState ∧ fullState.stack.valid = true ∧ (stackContents fullState).length = 4 ∧
      stackContents fullState = [0, 0, 0] ++ [0x44#8]) ∧
    (Inv b0 ∧ b0.stack.valid = true ∧ stackContents b0 = []) :=
  ⟨⟨inv_full, by decide⟩, inv_boot.1, by decide⟩

/-- Full, with room, empty, and wrapped. -/
theorem witness_QueueRefinesABoundedFifo :
    (Inv fullState ∧ fullState.queue.valid = true ∧ (queueContents fullState).length = queueLength fullState.queue - 1 ∧
      queueContents fullState = 0xA1#8 :: [0, 0]) ∧
    (Inv b0 ∧ b0.queue.valid = true ∧ queueContents b0 = []) ∧
    (Inv q10 ∧ (queueContents q10).length < queueLength q10.queue - 1) :=
  ⟨⟨inv_full, by decide⟩, ⟨inv_boot.1, by decide⟩, inv_q10, by decide⟩

theorem witness_StepsOfARunGiveItsAtomicResult :
    Inv (running [0x09, 0x76, 0x00]) ∧ (running [0x09, 0x76, 0x00]).runActive = true := ⟨inv_running.1, rfl⟩

/-- L1-5, O9 and O8: a run that ends, one that finds an undefined opcode, and one onto a full STACK. -/
theorem witness_RunEndsAsTheTableSays :
    said (runAtomic (running [0x09, 0x76, 0x00])) = some okResponse ∧
    said (runAtomic (running [0x07])) = some (failResponse .instructionNotFound 3) ∧
    said (runAtomic (running [0x09, 0x01, 0x09, 0x02] 1)) = some (failResponse .stackOverflow 4) ∧
    Inv (running [0x09, 0x76, 0x00]) ∧ Inv (running [0x07]) :=
  ⟨by decide, by decide, by decide, inv_running.1, inv_running.2.1⟩

/-- An LB with a STACK, and one without. -/
theorem witness_SingleStepIsOneIteration :
    let s := { b0 with pending := [nextBytecodeInput, execInput 0x09] }
    s.runActive = false ∧ s.interp.valid = true ∧ s.interp.state ≠ .stopped ∧ byteAtCursor s = some 0x09#8 ∧
    (after (step { s with runActive := true })).map (·.stack.top) = some 0x201 ∧
    faultOf (step { s with runActive := true, stack := StackRegs.reset }) = some (.uninitialized .stack) := by decide

/-- L1-1, instance `N = 1`. -/
theorem witness_NewStackAcceptsExactlyItsCapacity :
    let s := { boot [0x08, 0x08] 1 with pending := [pushInput 0x00, pushInput 0x01] }
    Inv s ∧ s.runActive = false ∧ s.stack.valid = true ∧ s.stack.top = s.stack.bottom ∧
    [0x00#8].length = s.stack.topSentinel - s.stack.bottom ∧
    s.pending = [0x00#8].map pushInput ++ pushInput 0x01 :: [] :=
  ⟨inv_pending inv_boot.2.2 _, by decide⟩

theorem witness_PopsReturnPushesInReverse :
    let vs := [0x11#8, 0x22, 0x33, 0x44]
    let s := { b0 with pending := vs.map pushInput ++ List.replicate vs.length popInput ++ [popInput] }
    Inv s ∧ s.runActive = false ∧ s.stack.valid = true ∧
    s.stack.top + vs.length ≤ s.stack.topSentinel ∧ s.stack.top = s.stack.bottom :=
  ⟨inv_pending inv_boot.1 _, by decide⟩

/-- A region of length 4 with its cursors at the start, and one of length 3 with its cursors at the end. -/
theorem witness_EmptyQueueAcceptsLengthMinusOne :
    (let vs := [0xA1#8, 0xA2, 0xA3]
      let s := { b0 with pending := vs.map putInput ++ putInput 0xA4 :: [] }
      Inv s ∧ s.runActive = false ∧ s.queue.valid = true ∧ s.queue.head = s.queue.tail ∧
      vs.length = queueLength s.queue - 1) ∧
    (let vs := [0x11#8, 0x12]
      let s := { q10 with
        queue := { q10.queue with head := 0x312 }
        pending := vs.map putInput ++ putInput 0x13 :: [] }
      Inv s ∧ s.runActive = false ∧ s.queue.valid = true ∧ s.queue.head = s.queue.tail ∧
      vs.length = queueLength s.queue - 1) :=
  ⟨⟨inv_pending inv_boot.1 _, by decide⟩,
    ⟨by decide, by decide, by decide, by decide, by decide, by decide, by decide⟩, by decide⟩

/-- L1-3, round 2: the cursors start at the end of the region. -/
theorem witness_GetsReturnPutsInOrder :
    let vs := [0x11#8, 0x12]
    let s := { q10 with
      queue := { q10.queue with head := 0x312 }
      pending := vs.map putInput ++ List.replicate (vs.length + 1) getInput ++ [] }
    Inv s ∧ s.runActive = false ∧ s.queue.valid = true ∧ s.queue.head = s.queue.tail ∧
    vs.length ≤ queueLength s.queue - 1 :=
  ⟨⟨by decide, by decide, by decide, by decide, by decide, by decide, by decide⟩, by decide⟩

/-- The standard boot of the program of L1-5, after reset. -/
theorem witness_BootOrderReachesACleanLaunch :
    let prog := [0x09#8, 0x76#8, 0x00#8]
    let s : State := { State.reset with pending := placeInputs 0x100 prog ++
      [.command { cmd := 0x00#8, ref := 1, a0 := 0x200, a1 := 0x204, a2 := 0x200, d := 0 },
        .command { cmd := 0x40#8, ref := 1, a0 := 0x300, a1 := 0x303, a2 := 0, d := 0 },
        .command { cmd := 0x80#8, ref := 7, a0 := 0x100, a1 := 0x100 + prog.length, a2 := 0, d := 0 }] }
    Inv s ∧ s.runActive = false ∧ prog ≠ [] ∧ 0x204 < 2 ^ s.config.addrWidth ∧ 0x303 < 2 ^ s.config.addrWidth ∧
    0x100 + prog.length < 2 ^ s.config.addrWidth ∧
    ∀ a : Nat, ¬ ((0x200 ≤ a ∧ a < 0x204) ∧ 0x300 ≤ a ∧ a ≤ 0x303) ∧
      ¬ ((0x200 ≤ a ∧ a < 0x204) ∧ 0x100 ≤ a ∧ a < 0x100 + prog.length) ∧
      ¬ ((0x300 ≤ a ∧ a ≤ 0x303) ∧ 0x100 ≤ a ∧ a < 0x100 + prog.length) := by
  refine ⟨⟨by decide, by decide, by decide, by decide, by decide, by decide, by decide⟩, rfl, by decide, by decide,
    by decide, by decide, fun a => ?_⟩
  simp only [List.length_cons, List.length_nil]
  omega

end Sys2Proof.Tests
end

/-! ## Exact address arithmetic under the invariant (R10, R113, R143, R178) -/

namespace Sys2Proof.Machine

/-! ### The exclusive ends of the regions are addresses -/

section
variable {s : State}

theorem Inv.topSentinel_lt (h : Inv s) : s.stack.topSentinel < 2 ^ s.config.addrWidth := by
  obtain ⟨⟨-, -, hsentinel, -⟩, -⟩ := widthInv_iff.1 h.width
  exact hsentinel

theorem Inv.queueStop_lt (h : Inv s) : s.queue.stop < 2 ^ s.config.addrWidth := by
  obtain ⟨-, ⟨-, hstop, -⟩, -⟩ := widthInv_iff.1 h.width
  exact hstop

theorem Inv.byteCodeEnd_lt (h : Inv s) : s.interp.byteCodeEnd < 2 ^ s.config.addrWidth := by
  obtain ⟨-, -, -, hend, -⟩ := widthInv_iff.1 h.width
  exact hend

end

/-! ### The STACK: push, pop and capacity -/

section
variable {r : StackRegs}

theorem StackInv.bottom_pos (h : StackInv r) (hv : r.valid = true) : 1 ≤ r.bottom :=
  Nat.one_le_iff_ne_zero.2 (h hv).1

theorem StackInv.bottom_lt_topSentinel (h : StackInv r) (hv : r.valid = true) : r.bottom < r.topSentinel :=
  (h hv).2.1

/-- A push that finds room (R105) moves the top to at most the sentinel. -/
theorem StackInv.top_lt_topSentinel (h : StackInv r) (hv : r.valid = true) (hroom : r.top ≠ r.topSentinel) :
    r.top < r.topSentinel := by
  obtain ⟨-, -, -, hle⟩ := h hv
  exact Nat.lt_of_le_of_ne hle hroom

/-- A pop that finds a byte (R110) moves the top to no less than the bottom. -/
theorem StackInv.bottom_lt_top (h : StackInv r) (hv : r.valid = true) (hne : r.top ≠ r.bottom) :
    r.bottom < r.top := by
  obtain ⟨-, -, hle, -⟩ := h hv
  exact Nat.lt_of_le_of_ne hle hne.symm

end

/-! ### The QUEUE: the cursor's successor -/

section
variable {q : QueueRegs} {a : Nat}

@[simp] theorem nextQ_stop : nextQ q q.stop = q.start := if_pos rfl

theorem nextQ_of_ne_stop (h : a ≠ q.stop) : nextQ q a = a + 1 := if_neg h

theorem lt_stop_of_ne_stop (ha : inQueueRegion q a) (h : a ≠ q.stop) : a < q.stop :=
  Nat.lt_of_le_of_ne ha.2 h

/-- The successor stays in the region: at the end it is the start, elsewhere it is at most the end (R143). -/
theorem nextQ_inQueueRegion (ha : inQueueRegion q a) : inQueueRegion q (nextQ q a) := by
  obtain ⟨hstart, hstop⟩ := ha
  by_cases h : a = q.stop
  · subst h
    rw [nextQ_stop]
    exact ⟨Nat.le_refl _, hstart⟩
  · rw [nextQ_of_ne_stop h]
    exact ⟨Nat.le_succ_of_le hstart, lt_stop_of_ne_stop ⟨hstart, hstop⟩ h⟩

end

/-! ### INTERP: the fetch cursor -/

/-- A fetch that is not exhausted (R165) moves the cursor to at most the end (R178). -/
theorem InterpInv.byteCodePtr_lt_byteCodeEnd {r : InterpRegs} (h : InterpInv r) (hv : r.valid = true)
    (hne : r.byteCodePtr ≠ r.byteCodeEnd) : r.byteCodePtr < r.byteCodeEnd := by
  obtain ⟨-, -, hle⟩ := h hv
  exact Nat.lt_of_le_of_ne hle hne

/-! ### The obligation -/

/-- Settles O48: what is added to lies below a region's end, which is itself an address; what is subtracted from lies
above the bottom of the STACK; and the bytes below an exclusive end are at most `2 ^ AW - 2`. -/
theorem addressComputationsNeverWrap : Obligations.AddressComputationsNeverWrap := by
  intro s h
  refine ⟨fun hv => ?stack, fun _ a ha => ?queue, fun hv => ?interp⟩
  case stack =>
    have hsentinel := h.topSentinel_lt
    have hpos := h.stack.bottom_pos hv
    have hbottom := h.stack.bottom_lt_topSentinel hv
    refine ⟨fun hroom => ?push, fun hne => ?pop, hpos, Nat.sub_add_cancel (Nat.le_of_lt hbottom),
      Nat.sub_pos_of_lt hbottom, Nat.lt_of_le_of_lt (Nat.sub_le _ _) hsentinel, fun a ha => by omega⟩
    case push =>
      have htop := h.stack.top_lt_topSentinel hv hroom
      exact ⟨htop, Nat.lt_of_le_of_lt htop hsentinel⟩
    case pop =>
      have htop := h.stack.bottom_lt_top hv hne
      exact ⟨htop, Nat.sub_add_cancel (Nat.le_trans hpos (Nat.le_of_lt htop))⟩
  case queue =>
    refine ⟨fun hend => hend ▸ nextQ_stop, fun hne => ?_, nextQ_inQueueRegion ha⟩
    have hlt := lt_stop_of_ne_stop ha hne
    exact ⟨hlt, nextQ_of_ne_stop hne, Nat.lt_of_le_of_lt hlt h.queueStop_lt⟩
  case interp =>
    have hend := h.byteCodeEnd_lt
    refine ⟨fun hne => ?_, fun a ha => by omega⟩
    have hptr := h.interp.byteCodePtr_lt_byteCodeEnd hv hne
    exact ⟨hptr, Nat.lt_of_le_of_lt hptr hend⟩

end Sys2Proof.Machine

/-! ## Each unit's invariant, and what an instruction does to the unit (10_state.md R21, R23, R28, R34) -/

namespace Sys2Proof.Machine

/-! ### The invariant of a unit with its address registers below `bound` -/

/-- R23, and every address register of STACK below `bound`. -/
structure StackWf (bound : Nat) (r : StackRegs) : Prop where
  inv : StackInv r
  data : r.data < bound
  bottom : r.bottom < bound
  topSentinel : r.topSentinel < bound
  top : r.top < bound

/-- R28, and every address register of QUEUE below `bound`. -/
structure QueueWf (bound : Nat) (q : QueueRegs) : Prop where
  inv : QueueInv q
  start : q.start < bound
  stop : q.stop < bound
  head : q.head < bound
  tail : q.tail < bound
  lastHead : q.lastHead < bound

/-- R34, and every address register of INTERP below `bound`. -/
structure InterpWf (bound : Nat) (r : InterpRegs) : Prop where
  inv : InterpInv r
  byteCode : r.byteCode < bound
  byteCodeEnd : r.byteCodeEnd < bound
  byteCodePtr : r.byteCodePtr < bound

/-- `Inv`, unit by unit. -/
theorem inv_iff {s : State} :
    Inv s ↔
      StackWf (2 ^ s.config.addrWidth) s.stack ∧ QueueWf (2 ^ s.config.addrWidth) s.queue ∧
      InterpWf (2 ^ s.config.addrWidth) s.interp ∧ Memory.wf s.config.addrWidth s.mem = true ∧ ConfigInv s.config ∧
      (s.runActive = true → s.interp.valid = true ∧ s.interp.state ≠ .stopped) := by
  constructor
  · intro h
    obtain ⟨⟨hdata, hbottom, hsentinel, htop⟩, ⟨hstart, hstop, hhead, htail, hlast⟩, hcode, hend, hptr⟩ :=
      widthInv_iff.1 h.width
    exact ⟨⟨h.stack, hdata, hbottom, hsentinel, htop⟩, ⟨h.queue, hstart, hstop, hhead, htail, hlast⟩,
      ⟨h.interp, hcode, hend, hptr⟩, h.mem, h.config, h.run⟩
  · rintro ⟨hs, hq, hi, hm, hc, hr⟩
    exact ⟨hs.inv, hq.inv, hi.inv,
      widthInv_iff.2 ⟨⟨hs.data, hs.bottom, hs.topSentinel, hs.top⟩,
        ⟨hq.start, hq.stop, hq.head, hq.tail, hq.lastHead⟩, hi.byteCode, hi.byteCodeEnd, hi.byteCodePtr⟩,
      hm, hc, hr⟩

section
variable {s : State}

/-- The host's inputs to come are no part of the invariant. -/
theorem Inv.withPending (h : Inv s) (l : List HostInput) : Inv { s with pending := l } :=
  have units := inv_iff.1 h
  inv_iff.2 units

theorem Inv.stackWf (h : Inv s) : StackWf (2 ^ s.config.addrWidth) s.stack := (inv_iff.1 h).1
theorem Inv.queueWf (h : Inv s) : QueueWf (2 ^ s.config.addrWidth) s.queue := (inv_iff.1 h).2.1
theorem Inv.interpWf (h : Inv s) : InterpWf (2 ^ s.config.addrWidth) s.interp := (inv_iff.1 h).2.2.1

end

/-! ### The address operands of the inits -/

theorem fits_stackInit {aw a0 a1 a2 : Nat} {r : Bool} :
    (Instr.stackInit r a0 a1 a2).fits aw = true ↔ a0 < 2 ^ aw ∧ a1 < 2 ^ aw ∧ a2 < 2 ^ aw := by
  simp [Instr.fits, Instr.addresses]

theorem fits_queueInit {aw a0 a1 : Nat} {r : Bool} :
    (Instr.queueInit r a0 a1).fits aw = true ↔ a0 < 2 ^ aw ∧ a1 < 2 ^ aw := by
  simp [Instr.fits, Instr.addresses]

theorem fits_interpInit {aw a0 a1 : Nat} {r sr qr : Bool} :
    (Instr.interpInit r sr qr a0 a1).fits aw = true ↔ a0 < 2 ^ aw ∧ a1 < 2 ^ aw := by
  simp [Instr.fits, Instr.addresses]

/-! ### STACK -/

/-- Every way an instruction takes the registers of STACK to others. -/
inductive StackChange : Instr → StackRegs → StackRegs → Prop where
  | keeps {i r} : StackChange i r r
  | init {r a0 a1 a2} (h2 : a2 ≠ 0) (h : a2 < a1) :
      StackChange (.stackInit true a0 a1 a2) r { data := a0, bottom := a2, topSentinel := a1, top := a2, valid := true }
  | push {i r} (hi : ∀ s, storeAddr s i = some s.stack.top) (hq : isQueueCommand i = false) (hv : r.valid = true)
      (ht : r.top ≠ r.topSentinel) : StackChange i r { r with top := r.top + 1 }
  | pop {r} (hv : r.valid = true) (ht : r.top ≠ r.bottom) :
      StackChange (.stackPop true) r { r with top := r.top - 1 }

theorem LbEffect.stackChange {imm8 : Option Byte} {i : Instr} {s t : State} {k : Kind} (h : LbEffect imm8 s k t)
    (hi : ∀ s, storeAddr s i = some s.stack.top) (hq : isQueueCommand i = false) :
    StackChange i s.stack t.stack := by
  cases h with
  | pushes v hv hz hs ht => exact .push hi hq hs ht
  | ends | overflows => exact .keeps

theorem Effect.stackChange {i : Instr} {s t : State} (h : Effect i s t) : StackChange i s.stack t.stack := by
  cases h with
  | stackInit h2 h => exact .init h2 h
  | stackPush hv ht => exact .push (fun _ => rfl) rfl hv ht
  | stackPop hv ht => exact .pop hv ht
  | execLbOk _ _ h | execLbFails _ _ _ _ h => exact h.stackChange (fun _ => rfl) rfl
  | lbOk h | lbEnds h | lbOverflows h => exact h.stackChange (fun _ => rfl) rfl
  | _ => exact .keeps

section
variable {i : Instr} {r r' : StackRegs}

theorem StackChange.eq_of_queueCommand (h : StackChange i r r') (hq : isQueueCommand i = true) : r' = r := by
  cases h with
  | keeps => rfl
  | push _ hq' => rw [hq'] at hq; cases hq
  | init | pop => cases hq

theorem StackChange.eq_of_storeless {s : State} (h : StackChange i r r') (hs : isStackCommand i = false)
    (hn : storeAddr s i = none) : r' = r := by
  cases h with
  | keeps => rfl
  | push hi => rw [hi s] at hn; cases hn
  | init | pop => cases hs

theorem StackChange.region_eq (h : StackChange i r r') (hi : ∀ b a0 a1 a2, i ≠ .stackInit b a0 a1 a2) :
    r'.data = r.data ∧ r'.bottom = r.bottom ∧ r'.topSentinel = r.topSentinel ∧ r'.valid = r.valid := by
  cases h with
  | init => exact absurd rfl (hi _ _ _ _)
  | keeps | push | pop => exact ⟨rfl, rfl, rfl, rfl⟩

theorem StackChange.valid (h : StackChange i r r') (hv : r.valid = true) : r'.valid = true := by
  cases h with
  | init => rfl
  | keeps | push | pop => exact hv

theorem StackChange.wf {aw : Nat} (h : StackChange i r r') (hi : i.fits aw = true) (hr : StackWf (2 ^ aw) r) :
    StackWf (2 ^ aw) r' := by
  cases h with
  | keeps => exact hr
  | init h2 h =>
    obtain ⟨h0, h1, ha2⟩ := fits_stackInit.1 hi
    exact ⟨fun _ => ⟨h2, h, Nat.le_refl _, Nat.le_of_lt h⟩, h0, ha2, h1, ha2⟩
  | push _ _ hv ht =>
    obtain ⟨hne, hlt, hle, -⟩ := hr.inv hv
    have htop := hr.inv.top_lt_topSentinel hv ht
    exact ⟨fun _ => ⟨hne, hlt, Nat.le_succ_of_le hle, htop⟩, hr.data, hr.bottom, hr.topSentinel,
      Nat.lt_of_le_of_lt htop hr.topSentinel⟩
  | pop hv ht =>
    obtain ⟨hne, hlt, -, hle⟩ := hr.inv hv
    have htop := hr.inv.bottom_lt_top hv ht
    exact ⟨fun _ => ⟨hne, hlt, Nat.le_sub_one_of_lt htop, Nat.le_trans (Nat.sub_le _ _) hle⟩, hr.data, hr.bottom,
      hr.topSentinel, Nat.lt_of_le_of_lt (Nat.sub_le _ _) hr.top⟩

end

/-! ### QUEUE -/

/-- The registers after a successful QUEUE_PUT (R135). -/
def putRegs (c : Config) (q : QueueRegs) : QueueRegs :=
  { q with lastHead := lastHeadAfter c .put (q.tail = q.stop) q, tail := nextQ q q.tail }

/-- The registers after a successful QUEUE_GET (R140). -/
def getRegs (c : Config) (q : QueueRegs) : QueueRegs :=
  { q with lastHead := lastHeadAfter c .get (q.head = q.stop) q, head := nextQ q q.head }

/-- Every way an instruction takes the registers of QUEUE to others, in a block with the parameters `c`. -/
inductive QueueChange (c : Config) : Instr → QueueRegs → QueueRegs → Prop where
  | keeps {i q} : QueueChange c i q q
  | init {q a0 a1} (h : a0 ≤ a1) :
      QueueChange c (.queueInit true a0 a1) q
        { start := a0, stop := a1, head := a0, tail := a0, lastHead := a0, valid := true }
  | put {q v} (hv : q.valid = true) : QueueChange c (.queuePut true v) q (putRegs c q)
  | get {q} (hv : q.valid = true) : QueueChange c (.queueGet true) q (getRegs c q)

theorem Effect.queueChange {i : Instr} {s t : State} (h : Effect i s t) :
    QueueChange s.config i s.queue t.queue := by
  cases h with
  | queueInit h => exact .init h
  | queuePut hv ht => exact .put hv
  | queueGet hv ht => exact .get hv
  | execLbOk _ _ h | execLbFails _ _ _ _ h | lbOk h | lbEnds h | lbOverflows h => cases h <;> exact .keeps
  | _ => exact .keeps

section
variable {c : Config} {i : Instr} {q q' : QueueRegs}

theorem QueueChange.eq_of_not_queueCommand (h : QueueChange c i q q') (hq : isQueueCommand i = false) : q' = q := by
  cases h with
  | keeps => rfl
  | init | put | get => cases hq

theorem QueueChange.region_eq (h : QueueChange c i q q') (hi : ∀ b a0 a1, i ≠ .queueInit b a0 a1) :
    q'.start = q.start ∧ q'.stop = q.stop ∧ q'.valid = q.valid := by
  cases h with
  | init => exact absurd rfl (hi _ _ _)
  | keeps | put | get => exact ⟨rfl, rfl, rfl⟩

theorem QueueChange.valid (h : QueueChange c i q q') (hv : q.valid = true) : q'.valid = true := by
  cases h with
  | init => rfl
  | keeps | put | get => exact hv

theorem QueueChange.wf (h : QueueChange c i q q') (hi : i.fits c.addrWidth = true) (hq : QueueWf (2 ^ c.addrWidth) q) :
    QueueWf (2 ^ c.addrWidth) q' := by
  cases h with
  | keeps => exact hq
  | init h =>
    obtain ⟨h0, h1⟩ := fits_queueInit.1 hi
    exact ⟨fun _ => ⟨h, ⟨Nat.le_refl _, h⟩, Nat.le_refl _, h⟩, h0, h1, h0, h0, h0⟩
  | put hv =>
    obtain ⟨hle, hhead, htail⟩ := hq.inv hv
    have hnext := nextQ_inQueueRegion htail
    exact ⟨fun _ => ⟨hle, hhead, hnext⟩, hq.start, hq.stop, hq.head, Nat.lt_of_le_of_lt hnext.2 hq.stop,
      lastHeadAfter_lt _ _ hq.stop hq.lastHead⟩
  | get hv =>
    obtain ⟨hle, hhead, htail⟩ := hq.inv hv
    have hnext := nextQ_inQueueRegion hhead
    exact ⟨fun _ => ⟨hle, hnext, htail⟩, hq.start, hq.stop, Nat.lt_of_le_of_lt hnext.2 hq.stop, hq.tail,
      lastHeadAfter_lt _ _ hq.stop hq.lastHead⟩

end

/-! ### INTERP -/

/-- Every way an instruction takes the registers of INTERP to others. The cursor moves by an LB with an operand, or
where the region is not exhausted. -/
inductive InterpChange : Instr → InterpRegs → InterpRegs → Prop where
  | keeps {i r} : InterpChange i r r
  | init {r a0 a1} (h : a0 < a1) :
      InterpChange (.interpInit true true true a0 a1) r
        { byteCode := a0, byteCodeEnd := a1, byteCodePtr := a0, state := .running, valid := true }
  | setsState {i r} (x : IState) (hs : isStackCommand i = false) (hq : isQueueCommand i = false) :
      InterpChange i r { r with state := x }
  | advances {i r} (x : IState) (hs : isStackCommand i = false) (hq : isQueueCommand i = false)
      (hp : (∃ v, i = .lb (some v)) ∨ (r.valid = true ∧ r.byteCodePtr ≠ r.byteCodeEnd)) :
      InterpChange i r { r with byteCodePtr := r.byteCodePtr + 1, state := x }

/-- A byte at the cursor stands before the end of the region. -/
theorem ptr_ne_end_of_byteAtCursor {s : State} {v : Byte} (h : byteAtCursor s = some v) :
    s.interp.byteCodePtr ≠ s.interp.byteCodeEnd := by
  rcases byteAtCursor_cases s with ⟨-, e⟩ | ⟨hp, -⟩
  · rw [e] at h; cases h
  · exact hp

theorem LbEffect.interpChange {imm8 : Option Byte} {i : Instr} {s t : State} {k : Kind} (h : LbEffect imm8 s k t)
    (hs : isStackCommand i = false) (hq : isQueueCommand i = false)
    (hp : ∀ v, imm8 = some v →
      (∃ v, i = .lb (some v)) ∨ (s.interp.valid = true ∧ s.interp.byteCodePtr ≠ s.interp.byteCodeEnd)) :
    InterpChange i s.interp t.interp := by
  cases h with
  | ends => exact .setsState _ hs hq
  | overflows v hv | pushes v hv => exact .advances _ hs hq (hp v hv)

theorem Effect.interpChange {i : Instr} {s t : State} (h : Effect i s t) : InterpChange i s.interp t.interp := by
  cases h with
  | interpInit h => exact .init h
  | fetches hv hs hp => exact .advances _ rfl rfl (.inr ⟨hv, hp⟩)
  | fetchEnds | execNo | execUndefined | terminator | no | undefined => exact .setsState _ rfl rfl
  | execLbOk hv _ h | execLbFails _ _ hv _ h =>
    exact h.interpChange rfl rfl (fun v hb => .inr ⟨hv, ptr_ne_end_of_byteAtCursor hb⟩)
  | lbOk h | lbEnds h | lbOverflows h => exact h.interpChange rfl rfl (fun v hb => .inl ⟨v, hb ▸ rfl⟩)
  | _ => exact .keeps

section
variable {i : Instr} {r r' : InterpRegs}

theorem InterpChange.eq_of_unitCommand (h : InterpChange i r r')
    (hi : isStackCommand i = true ∨ isQueueCommand i = true) : r' = r := by
  cases h with
  | keeps => rfl
  | init => rcases hi with hi | hi <;> cases hi
  | setsState _ hs hq | advances _ hs hq => simp [hs, hq] at hi

theorem InterpChange.region_eq (h : InterpChange i r r') (hi : ∀ b sr qr a0 a1, i ≠ .interpInit b sr qr a0 a1) :
    r'.byteCode = r.byteCode ∧ r'.byteCodeEnd = r.byteCodeEnd ∧ r'.valid = r.valid := by
  cases h with
  | init => exact absurd rfl (hi _ _ _ _ _)
  | keeps | setsState | advances => exact ⟨rfl, rfl, rfl⟩

theorem InterpChange.valid (h : InterpChange i r r') (hv : r.valid = true) : r'.valid = true := by
  cases h with
  | init => rfl
  | keeps | setsState | advances => exact hv

theorem InterpWf.setState {bound : Nat} (h : InterpWf bound r) (x : IState) : InterpWf bound { r with state := x } :=
  ⟨h.inv, h.byteCode, h.byteCodeEnd, h.byteCodePtr⟩

theorem InterpWf.advance {bound : Nat} (h : InterpWf bound r) (hv : r.valid = true)
    (hp : r.byteCodePtr ≠ r.byteCodeEnd) : InterpWf bound { r with byteCodePtr := r.byteCodePtr + 1 } := by
  obtain ⟨hlt, hle, -⟩ := h.inv hv
  have hptr := h.inv.byteCodePtr_lt_byteCodeEnd hv hp
  exact ⟨fun _ => ⟨hlt, Nat.le_succ_of_le hle, hptr⟩, h.byteCode, h.byteCodeEnd,
    Nat.lt_of_le_of_lt hptr h.byteCodeEnd⟩

/-- An LB of a run has its operand byte before the end of the region (R205). -/
theorem InterpChange.wf {aw : Nat} (h : InterpChange i r r') (hi : i.fits aw = true)
    (hlb : ∀ v, i = .lb (some v) → r.valid = true ∧ r.byteCodePtr ≠ r.byteCodeEnd) (hr : InterpWf (2 ^ aw) r) :
    InterpWf (2 ^ aw) r' := by
  cases h with
  | keeps => exact hr
  | init h =>
    obtain ⟨h0, h1⟩ := fits_interpInit.1 hi
    exact ⟨fun _ => ⟨h, Nat.le_refl _, Nat.le_of_lt h⟩, h0, h1, h0⟩
  | setsState x => exact hr.setState x
  | advances x _ _ hp =>
    have hcursor : r.valid = true ∧ r.byteCodePtr ≠ r.byteCodeEnd :=
      hp.elim (fun ⟨v, hv⟩ => hlb v hv) id
    exact (hr.advance hcursor.1 hcursor.2).setState x

end

/-! ### MEM, the parameters, the host's inputs and the run in progress -/

/-- LB writes MEM at the top of the STACK, or not at all. -/
theorem LbEffect.mem_cases {imm8 : Option Byte} {s t : State} {k : Kind} (h : LbEffect imm8 s k t) :
    t.mem = s.mem ∨ ∃ v, t.mem = Memory.write s.mem s.stack.top v := by
  cases h with
  | pushes v => exact .inr ⟨v, rfl⟩
  | ends | overflows => exact .inl rfl

/-- An instruction writes MEM at the top of the STACK or at the tail of the QUEUE, or not at all. -/
theorem Effect.mem_cases {i : Instr} {s t : State} (h : Effect i s t) :
    t.mem = s.mem ∨ (∃ v, t.mem = Memory.write s.mem s.stack.top v) ∨
      ∃ v, t.mem = Memory.write s.mem s.queue.tail v := by
  cases h with
  | stackPush => exact .inr (.inl ⟨_, rfl⟩)
  | queuePut => exact .inr (.inr ⟨_, rfl⟩)
  | execLbOk _ _ h | execLbFails _ _ _ _ h | lbOk h | lbEnds h | lbOverflows h => exact h.mem_cases.imp_right .inl
  | _ => exact .inl rfl

theorem Effect.mem_wf {i : Instr} {s t : State} (h : Effect i s t) (hs : Inv s) :
    Memory.wf s.config.addrWidth t.mem = true := by
  rcases h.mem_cases with e | ⟨v, e⟩ | ⟨v, e⟩ <;> rw [e]
  · exact hs.mem
  · exact Memory.wf_write hs.mem hs.stackWf.top
  · exact Memory.wf_write hs.mem hs.queueWf.tail

theorem Effect.config_pending_eq {i : Instr} {s t : State} (h : Effect i s t) :
    t.config = s.config ∧ t.pending = s.pending := by
  cases h with
  | execLbOk _ _ h | execLbFails _ _ _ _ h | lbOk h | lbEnds h | lbOverflows h => cases h <;> exact ⟨rfl, rfl⟩
  | _ => exact ⟨rfl, rfl⟩

theorem Effect.runActive_eq {i : Instr} {s t : State} (h : Effect i s t)
    (hi : isStackCommand i = true ∨ isQueueCommand i = true) : t.runActive = s.runActive := by
  cases h with
  | runStarts | terminator | undefined | execLbOk | execLbFails | lbOk | lbEnds | lbOverflows =>
    rcases hi with hi | hi <;> cases hi
  | _ => rfl

theorem not_queueCommand_of_stackCommand {i : Instr} (h : isStackCommand i = true) : isQueueCommand i = false := by
  cases i with
  | stackInit | stackPush | stackPop | stackSize | stackGetBottom | stackGetTop | stackGetTopSentinel => rfl
  | _ => cases h

/-- A command with a record reference is no IL instruction. -/
theorem not_il_of_recordOf {i : Instr} {b : Bool} (h : recordOf i = some b) : isIl i = false := by
  cases i with
  | terminator | no | lb | undefined => cases h
  | _ => rfl

/-- An instruction completes a command with one response, and then no run is in progress; or it answers none, and then
a run is, of an INTERP that is not Stopped. IL instructions are those of a run. -/
theorem Effect.completes_or_runs {i : Instr} {s t : State} (h : Effect i s t) (hi : isIl i = s.runActive) :
    ((∃ r, t.responses = r :: s.responses) ∧ t.runActive = false) ∨
    (t.responses = s.responses ∧ t.runActive = true ∧ t.interp.state ≠ .stopped ∧
      ((s.runActive = true → s.interp.valid = true) → t.interp.valid = true)) := by
  cases h with
  | nullRef hr | fails _ hr | readsAddr _ _ hr | isStopped hr =>
    exact .inl ⟨⟨_, rfl⟩, hi.symm.trans (not_il_of_recordOf hr)⟩
  | terminator | undefined => exact .inl ⟨⟨_, rfl⟩, rfl⟩
  | lbEnds h | lbOverflows h =>
    obtain ⟨-, -, -, hresp, -⟩ := h.frame
    exact .inl ⟨⟨_, congrArg _ hresp⟩, rfl⟩
  | execLbOk _ _ h | execLbFails _ _ _ _ h =>
    obtain ⟨-, -, -, hresp, hrun, -⟩ := h.frame
    exact .inl ⟨⟨_, congrArg _ hresp⟩, hrun.trans hi.symm⟩
  | runStarts hv hs => exact .inr ⟨rfl, rfl, hs, fun _ => hv⟩
  | no => exact .inr ⟨rfl, hi.symm, IState.noConfusion, fun h => h hi.symm⟩
  | lbOk h =>
    cases h with
    | pushes => exact .inr ⟨rfl, hi.symm, IState.noConfusion, fun h => h hi.symm⟩
  | _ => exact .inl ⟨⟨_, rfl⟩, hi.symm⟩

/-! ### The step -/

/-- The addresses of a command that the block takes have the port's width (R80). -/
theorem decodeCommand_fits (aw : Nat) (p : PortInput) : (decodeCommand aw p).fits aw = true := by
  unfold decodeCommand decodePort
  split <;> simp [Instr.fits, Instr.addresses, PortInput.narrow, narrowAddr_lt]

/-- No IL instruction has an address operand. -/
theorem fits_of_il {aw : Nat} {i : Instr} (h : isIl i = true) : i.fits aw = true := by
  cases i with
  | terminator | no | lb | undefined => rfl
  | _ => cases h

/-- The opcode fetch of a run finds no exhaustion (R165). -/
theorem ptr_ne_end_of_fetchInstr {s u : State} {i : Instr} (h : fetchInstr s = some (i, u)) :
    s.interp.byteCodePtr ≠ s.interp.byteCodeEnd := by
  rcases fetchInstr_cases s with ⟨_, e⟩ | ⟨hp, _⟩ | ⟨hp, _⟩ | ⟨hp, _⟩ | ⟨hp, _⟩
  · rw [e] at h; cases h
  all_goals exact hp

/-- The literal of a fetched LB is the byte at the cursor past its opcode (R205). -/
theorem byteAtCursor_of_fetchInstr_lb {s u : State} {imm8 : Option Byte} (h : fetchInstr s = some (.lb imm8, u)) :
    byteAtCursor u = imm8 := by
  rcases fetchInstr_cases s with ⟨_, e⟩ | ⟨_, _, e⟩ | ⟨_, _, e⟩ | ⟨_, _, e⟩ | ⟨_, _, e⟩ <;> rw [e] at h <;> cases h
  rfl

/-- An instruction keeps `Inv`: an IL instruction while a run is in progress, a command else, with addresses of `AW`
bits, and an LB with its operand byte before the end of the region. -/
theorem Effect.inv {i : Instr} {s t : State} (h : Effect i s t) (hs : Inv s) (hil : isIl i = s.runActive)
    (hi : i.fits s.config.addrWidth = true)
    (hlb : ∀ v, i = .lb (some v) → s.interp.byteCodePtr ≠ s.interp.byteCodeEnd) : Inv t := by
  have hoperand : ∀ v, i = .lb (some v) → s.interp.valid = true ∧ s.interp.byteCodePtr ≠ s.interp.byteCodeEnd :=
    fun v hv => ⟨(hs.run (by rw [← hil, hv]; rfl)).1, hlb v hv⟩
  have hrun : t.runActive = true → t.interp.valid = true ∧ t.interp.state ≠ .stopped := by
    intro ht
    rcases h.completes_or_runs hil with ⟨-, hf⟩ | ⟨-, -, hstate, hvalid⟩
    · rw [hf] at ht; cases ht
    · exact ⟨hvalid (fun hr => (hs.run hr).1), hstate⟩
  rw [inv_iff, h.config_pending_eq.1]
  exact ⟨h.stackChange.wf hi hs.stackWf, h.queueChange.wf hi hs.queueWf,
    h.interpChange.wf hi hoperand hs.interpWf, h.mem_wf hs, hs.config, hrun⟩

theorem Inv.advance {s : State} (h : Inv s) (hv : s.interp.valid = true)
    (hp : s.interp.byteCodePtr ≠ s.interp.byteCodeEnd) : Inv (advance s) :=
  inv_iff.2 ⟨h.stackWf, h.queueWf, h.interpWf.advance hv hp, h.mem, h.config, h.run⟩

/-- The opcode fetch of a run keeps `Inv`. -/
theorem Inv.fetched {s u : State} {i : Instr} (h : Inv s) (hr : s.runActive = true)
    (hf : fetchInstr s = some (i, u)) : Inv u := by
  rcases (fetchInstr_il hf).2 with rfl | rfl
  · exact h
  · exact h.advance (h.run hr).1 (ptr_ne_end_of_fetchInstr hf)

theorem fetchInstr_frame {s u : State} {i : Instr} (hf : fetchInstr s = some (i, u)) :
    u.runActive = s.runActive ∧ u.pending = s.pending ∧ u.responses = s.responses := by
  rcases (fetchInstr_il hf).2 with rfl | rfl <;> exact ⟨rfl, rfl, rfl⟩

/-- Exhaustion leaves the state that the terminator leaves. -/
theorem Inv.exhausts {s : State} (h : Inv s) (hr : s.runActive = true) : Inv (endRun .ok (stopInterp s)) :=
  Effect.terminator.inv h hr.symm rfl (fun _ hv => nomatch hv)

theorem Inv.hostPoke {s : State} (h : Inv s) (a : Nat) (v : Byte) : Inv (hostPoke a v s) :=
  inv_iff.2 ⟨h.stackWf, h.queueWf, h.interpWf, Memory.wf_write h.mem (narrowAddr_lt _ _), h.config, h.run⟩

/-- The registers after reset are 0, which every width holds, and their units are invalid. -/
theorem inv_resetOf {c : Config} (h : ConfigInv c) : Inv (State.resetOf c) := by
  have hpos := Nat.two_pow_pos c.addrWidth
  exact inv_iff.2 ⟨⟨(fun hv => nomatch hv), hpos, hpos, hpos, hpos⟩,
    ⟨(fun hv => nomatch hv), hpos, hpos, hpos, hpos, hpos⟩, ⟨(fun hv => nomatch hv), hpos, hpos, hpos⟩, h.2, h,
    (fun hr => nomatch hr)⟩

theorem Inv.hostReset {s : State} (h : Inv s) : Inv (hostReset s) :=
  have units := inv_iff.1 (inv_resetOf h.config)
  inv_iff.2 units

/-- No instruction clears a valid bit. -/
theorem Effect.valid {i : Instr} {s t : State} (h : Effect i s t) :
    (s.stack.valid = true → t.stack.valid = true) ∧ (s.queue.valid = true → t.queue.valid = true) ∧
    (s.interp.valid = true → t.interp.valid = true) :=
  ⟨h.stackChange.valid, h.queueChange.valid, h.interpChange.valid⟩

/-! ### Responses -/

/-- An INTERP_RUN is in progress, or the step takes a command (R85). -/
def commandAtWork (s : State) : Prop := s.runActive = true ∨ ∃ p, nextInput s = some (.command p)

theorem not_commandAtWork {s : State} (hr : s.runActive = false) (hp : ∀ p, s.pending.head? ≠ some (.command p)) :
    ¬ commandAtWork s := by
  rintro (h | ⟨p, h⟩)
  · rw [hr] at h; cases h
  · rw [nextInput, hr] at h; exact hp p h

/-- A step completes the command at work with one response, or it answers none and a run is in progress after it exactly
where a command is at work. -/
theorem StepEffect.completes_or_runs {s t : State} (h : StepEffect s t) :
    ((∃ r, t.responses = r :: s.responses) ∧ t.runActive = false ∧ commandAtWork s) ∨
    (t.responses = s.responses ∧ (t.runActive = true ↔ commandAtWork s)) := by
  cases h with
  | exhausts hr => exact .inl ⟨⟨_, rfl⟩, rfl, .inl hr⟩
  | fetched i u hr hf he =>
    obtain ⟨hrun, -, hresp⟩ := fetchInstr_frame hf
    rcases he.completes_or_runs (((fetchInstr_il hf).1.trans hr.symm).trans hrun.symm) with ⟨h, hend⟩ | ⟨h, hgoes, -⟩
    · exact .inl ⟨hresp ▸ h, hend, .inl hr⟩
    · exact .inr ⟨h.trans hresp, iff_of_true hgoes (.inl hr)⟩
  | command p rest hr hp he =>
    have hwork : commandAtWork s := .inr ⟨p, nextInput_of_pending hr hp⟩
    rcases he.completes_or_runs ((decodeCommand_not_il _ p).trans hr.symm) with ⟨h, hend⟩ | ⟨h, hgoes, -⟩
    · exact .inl ⟨h, hend, hwork⟩
    · exact .inr ⟨h, iff_of_true hgoes hwork⟩
  | waits hr hp | poked _ _ _ hr hp =>
    exact .inr ⟨rfl, iff_of_false (ne_true_of_eq_false hr) (not_commandAtWork hr (by simp [hp]))⟩
  | wasReset rest hr hp =>
    exact .inr ⟨rfl, iff_of_false Bool.noConfusion (not_commandAtWork hr (by simp [hp]))⟩

/-- A step of a run takes no input of the host (R85). -/
theorem StepEffect.pending_eq_of_run {s t : State} (h : StepEffect s t) (hr : s.runActive = true) :
    t.pending = s.pending := by
  cases h with
  | exhausts | waits => rfl
  | fetched i u _ hf he => exact he.config_pending_eq.2.trans (fetchInstr_frame hf).2.1
  | command _ _ hr' | poked _ _ _ hr' | wasReset _ hr' => rw [hr'] at hr; cases hr

/-! ### What a step is, by what is in progress and what the host gives next -/

section
variable {s : State} {rest : List HostInput}

theorem step_of_fetchInstr {u : State} {i : Instr} (hr : s.runActive = true) (hf : fetchInstr s = some (i, u)) :
    step s = exec i u := by
  rw [step, if_pos hr, hf]

theorem step_of_exhausted (hr : s.runActive = true) (hf : fetchInstr s = none) : step s = exhaustRun s := by
  rw [step, if_pos hr, hf]

theorem step_of_no_input (hr : s.runActive = false) (hp : s.pending = []) : step s = .next s := by
  rw [step, if_neg (ne_true_of_eq_false hr), hp]

theorem step_of_command {p : PortInput} (hr : s.runActive = false) (hp : s.pending = .command p :: rest) :
    step s = exec (decodeCommand s.config.addrWidth p) { s with pending := rest } := by
  rw [step, if_neg (ne_true_of_eq_false hr), hp]

theorem step_of_poke {a : Nat} {v : Byte} (hr : s.runActive = false) (hp : s.pending = .poke a v :: rest) :
    step s = .next (hostPoke a v { s with pending := rest }) := by
  rw [step, if_neg (ne_true_of_eq_false hr), hp]

theorem step_of_reset (hr : s.runActive = false) (hp : s.pending = .reset :: rest) :
    step s = .next (hostReset { s with pending := rest }) := by
  rw [step, if_neg (ne_true_of_eq_false hr), hp]

end

/-! ### The opcode fetch by the decoder -/

theorem byteAtCursor_of_ne_end {s : State} (hp : s.interp.byteCodePtr ≠ s.interp.byteCodeEnd) :
    byteAtCursor s = some (memRead s s.interp.byteCodePtr) :=
  if_neg hp

theorem byteAtCursor_advance (s : State) :
    byteAtCursor (advance s) =
      if s.interp.byteCodePtr + 1 = s.interp.byteCodeEnd then none else some (memRead s (s.interp.byteCodePtr + 1)) :=
  rfl

theorem bytesAtCursor_of_ne_end {s : State} (hp : s.interp.byteCodePtr ≠ s.interp.byteCodeEnd) :
    bytesAtCursor s = memRead s s.interp.byteCodePtr ::
      (if s.interp.byteCodePtr + 1 = s.interp.byteCodeEnd then [] else [memRead s (s.interp.byteCodePtr + 1)]) := by
  rw [bytesAtCursor, byteAtCursor_of_ne_end hp]
  refine congrArg (List.cons _) ?_
  rw [byteAtCursor_advance]
  split <;> rfl

/-- The opcode fetch is the decoder's instruction, past its opcode byte unless that is the terminator. -/
theorem fetchInstr_of_decodeIL {s : State} {i : Instr} {tl : List Byte}
    (h : decodeIL (bytesAtCursor s) = .ok (i, tl)) :
    fetchInstr s = some (i, if i = .terminator then s else advance s) := by
  rw [fetchInstr, h]
  cases i <;> rfl

/-! ### The obligations -/

/-- Settles O49: each unit's registers change in the ways `StackChange`, `QueueChange` and `InterpChange` list, each of
which keeps the unit's part of `Inv`. -/
theorem everyStepKeepsTheInvariant : Obligations.EveryStepKeepsTheInvariant := by
  intro s t h hstep
  cases step_effect hstep with
  | exhausts hr hp => exact h.exhausts hr
  | fetched i u hr hf he =>
    have hil := (fetchInstr_il hf).1
    exact he.inv (h.fetched hr hf) (hil.trans ((fetchInstr_frame hf).1.trans hr).symm) (fits_of_il hil)
      (fun v hv => ptr_ne_end_of_byteAtCursor (byteAtCursor_of_fetchInstr_lb (hv ▸ hf)))
  | waits => exact h
  | command p rest hr hp he =>
    have hil := decodeCommand_not_il s.config.addrWidth p
    exact he.inv (h.withPending rest) (hil.trans hr.symm) (decodeCommand_fits _ p)
      (fun v hv => by rw [hv] at hil; cases hil)
  | poked a v rest => exact (h.withPending rest).hostPoke a v
  | wasReset rest => exact (h.withPending rest).hostReset

/-- Settles O36: the ways a unit's registers change name the instructions that can change them. -/
theorem instructionsKeepOtherUnits : Obligations.InstructionsKeepOtherUnits := by
  intro i s t hexec
  have h := exec_effect hexec
  obtain ⟨hconfig, hpending⟩ := h.config_pending_eq
  have hstack := h.stackChange
  have hqueue := h.queueChange
  have hinterp := h.interpChange
  refine ⟨hconfig, hpending, fun hi => ⟨?_, ?_, ?_⟩, fun hi => ⟨?_, ?_, ?_⟩, fun hs hq => ⟨?_, ?_⟩,
    hstack.region_eq, hqueue.region_eq, hinterp.region_eq⟩
  · exact hqueue.eq_of_not_queueCommand (not_queueCommand_of_stackCommand hi)
  · exact hinterp.eq_of_unitCommand (.inl hi)
  · exact h.runActive_eq (.inl hi)
  · exact hstack.eq_of_queueCommand hi
  · exact hinterp.eq_of_unitCommand (.inr hi)
  · exact h.runActive_eq (.inr hi)
  · exact hqueue.eq_of_not_queueCommand hq
  · exact hstack.eq_of_storeless hs

/-- Settles O38: no instruction clears a valid bit, and of the host's inputs the reset alone does. -/
theorem onlyResetClearsValidBits : Obligations.OnlyResetClearsValidBits := by
  intro s t hstep hreset
  cases step_effect hstep with
  | exhausts | waits | poked => exact ⟨id, id, id⟩
  | fetched i u hr hf he =>
    rcases (fetchInstr_il hf).2 with rfl | rfl
    all_goals exact he.valid
  | command p rest hr hp he => exact he.valid
  | wasReset rest hr hp => exact absurd (nextInput_of_pending hr hp) hreset

/-- Settles O46: the instruction of a run or of a command completes it with one response or leaves a run in progress;
the other steps answer none and have no command at work. -/
theorem eachCommandCompletesWithOneResponse : Obligations.EachCommandCompletesWithOneResponse := by
  intro s t hstep
  have h := step_effect hstep
  rcases h.completes_or_runs with ⟨hresp, hend, hwork⟩ | ⟨hresp, hrun⟩
  · exact ⟨.inl hresp, iff_of_true hresp ⟨hwork, hend⟩, fun _ => hwork, h.pending_eq_of_run⟩
  · refine ⟨.inr hresp, iff_of_false (fun ⟨r, hr⟩ => ?_) (fun ⟨hwork, hend⟩ => ?_), hrun.1, h.pending_eq_of_run⟩
    · exact absurd (hresp.symm.trans hr) (List.cons_ne_self r _).symm
    · exact absurd (hrun.2 hwork) (ne_true_of_eq_false hend)

/-- Settles O8: R46, read off the state after reset. -/
theorem resetClearsValidBitsAndLoadsMem0 : Obligations.ResetClearsValidBitsAndLoadsMem0 :=
  fun _ => ⟨rfl, rfl, rfl, IState.noConfusion, fun _ => rfl⟩

/-- Settles O9: each value is the one `State.reset` is built from. -/
theorem chosenResetValues : Obligations.ChosenResetValues :=
  ⟨rfl, rfl, rfl, rfl, rfl, rfl, rfl, rfl⟩

/-- Settles O10: the units are invalid after reset, and the default parameters are ones R7 allows. -/
theorem invariantHoldsAtReset : Obligations.InvariantHoldsAtReset :=
  have hdefault : ConfigInv Config.default := by decide
  ⟨inv_resetOf hdefault, fun _ h => inv_resetOf h⟩

/-- Settles O12: the bytes the decoder sees are the one at the cursor and, before the end, the one after it. -/
theorem stepRunsTheFetchedInstruction : Obligations.StepRunsTheFetchedInstruction := by
  intro s i tl hr hp hd
  rw [← bytesAtCursor_of_ne_end hp] at hd
  exact step_of_fetchInstr hr (fetchInstr_of_decodeIL hd)

end Sys2Proof.Machine

/-! ## The STACK as a bounded list (10_state.md R24, 40_stack.md R104, R110, R111) -/

namespace Sys2Proof.Machine

/-! ### The bodies of STACK_PUSH and STACK_POP -/

section
variable {s : State}

theorem stackPushBody_full (v : Byte) (ht : s.stack.top = s.stack.topSentinel) :
    stackPushBody v s = .next (respond (failResponse .stackOverflow 2) s) := by
  rw [stackPushBody, stackPushCore, if_pos ht]
  rfl

theorem stackPushBody_room (v : Byte) (ht : s.stack.top ≠ s.stack.topSentinel) :
    stackPushBody v s = .next (respond okResponse (setTop (s.stack.top + 1) (memWrite s.stack.top v s))) := by
  rw [stackPushBody, stackPushCore, if_neg ht]
  rfl

theorem stackPopBody_empty (ht : s.stack.top = s.stack.bottom) :
    stackPopBody s = .next (respond (failResponse .stackUnderflow 2) s) :=
  if_pos ht

theorem stackPopBody_nonempty (ht : s.stack.top ≠ s.stack.bottom) :
    stackPopBody s
      = .next (respond (byteResponse (memRead s (s.stack.top - 1))) (setTop (s.stack.top - 1) s)) :=
  if_neg ht

theorem exec_stackPush_valid (v : Byte) (hv : s.stack.valid = true) :
    exec (.stackPush true v) s = stackPushBody v s :=
  stackCommand_valid _ hv

theorem exec_stackPop_valid (hv : s.stack.valid = true) : exec (.stackPop true) s = stackPopBody s :=
  stackCommand_valid _ hv

end

/-! ### Its elements -/

section
variable {s : State}

@[simp] theorem stackContents_length (s : State) : (stackContents s).length = s.stack.top - s.stack.bottom := by
  simp [stackContents]

/-- The last element lies below the top. -/
theorem stackContents_eq_concat (hb : s.stack.bottom < s.stack.top) :
    stackContents s = stackContents (setTop (s.stack.top - 1) s) ++ [memRead s (s.stack.top - 1)] := by
  have hn : s.stack.top - s.stack.bottom = s.stack.top - 1 - s.stack.bottom + 1 := by omega
  have hlast : s.stack.bottom + (s.stack.top - 1 - s.stack.bottom) = s.stack.top - 1 := by omega
  simp only [stackContents, hn, List.range_succ, List.map_append, List.map_cons, List.map_nil, hlast]
  rfl

/-- A write at the top is outside the elements. -/
theorem stackContents_memWrite_top (v : Byte) (hm : Memory.wf s.config.addrWidth s.mem = true) :
    stackContents (memWrite s.stack.top v s) = stackContents s := by
  refine List.map_congr_left fun i hi => ?_
  have hne : s.stack.bottom + i ≠ s.stack.top := by
    have hlt : i < s.stack.top - s.stack.bottom := List.mem_range.1 hi
    omega
  exact (Memory.read_write hm).trans (if_neg hne)

theorem stackContents_push (v : Byte) (hm : Memory.wf s.config.addrWidth s.mem = true)
    (hb : s.stack.bottom ≤ s.stack.top) :
    stackContents (setTop (s.stack.top + 1) (memWrite s.stack.top v s)) = stackContents s ++ [v] := by
  rw [stackContents_eq_concat (Nat.lt_succ_of_le hb)]
  congr 1
  · exact stackContents_memWrite_top v hm
  · exact congrArg (fun b => [b]) ((Memory.read_write hm).trans (if_pos rfl))

end

/-- Settles O51: the list is as long as the capacity exactly at a full STACK and empty exactly at an empty one; a push
writes behind its last element and a pop uncovers the elements below it. -/
theorem stackRefinesABoundedList : Obligations.StackRefinesABoundedList := by
  intro s h hv
  obtain ⟨-, -, hbottom, htop⟩ := h.stack hv
  refine ⟨?bound, fun v => ⟨fun hlen => ?full, fun hlen => ?room⟩, fun hnil => ?empty, fun l v hl => ?nonempty⟩
  case bound =>
    rw [stackContents_length]
    omega
  case full =>
    rw [stackContents_length] at hlen
    exact (exec_stackPush_valid v hv).trans (stackPushBody_full v (by omega))
  case room =>
    rw [stackContents_length] at hlen
    exact ⟨_, (exec_stackPush_valid v hv).trans (stackPushBody_room v (by omega)), rfl,
      stackContents_push v h.mem hbottom⟩
  case empty =>
    have hlen : s.stack.top - s.stack.bottom = 0 := by rw [← stackContents_length, hnil]; rfl
    exact (exec_stackPop_valid hv).trans (stackPopBody_empty (by omega))
  case nonempty =>
    have hlen : s.stack.top - s.stack.bottom = l.length + 1 := by rw [← stackContents_length, hl]; simp
    rw [stackContents_eq_concat (by omega)] at hl
    obtain ⟨hrest, hlast⟩ := List.append_inj' hl rfl
    obtain rfl := List.singleton_inj.1 hlast
    exact ⟨_, (exec_stackPop_valid hv).trans (stackPopBody_nonempty (by omega)), rfl, hrest⟩

end Sys2Proof.Machine

/-! ## The QUEUE as a bounded FIFO (10_state.md R29, 41_queue.md R135, R140, R141, R145) -/

namespace Sys2Proof.Machine

/-! ### The bodies of QUEUE_PUT and QUEUE_GET -/

section
variable {s : State}

theorem queuePutBody_full (v : Byte) (ht : nextQ s.queue s.queue.tail = s.queue.head) :
    queuePutBody v s = .next (respond (failResponse .queueFull 2) s) :=
  if_pos ht

theorem queuePutBody_room (v : Byte) (ht : nextQ s.queue s.queue.tail ≠ s.queue.head) :
    queuePutBody v s
      = .next (respond okResponse { memWrite s.queue.tail v s with queue := putRegs s.config s.queue }) :=
  if_neg ht

theorem queueGetBody_empty (ht : s.queue.head = s.queue.tail) :
    queueGetBody s = .next (respond (failResponse .queueEmpty 2) s) :=
  if_pos ht

theorem queueGetBody_nonempty (ht : s.queue.head ≠ s.queue.tail) :
    queueGetBody s
      = .next (respond (byteResponse (memRead s s.queue.head)) { s with queue := getRegs s.config s.queue }) :=
  if_neg ht

theorem exec_queuePut_valid (v : Byte) (hv : s.queue.valid = true) :
    exec (.queuePut true v) s = queuePutBody v s :=
  queueCommand_valid _ hv

theorem exec_queueGet_valid (hv : s.queue.valid = true) : exec (.queueGet true) s = queueGetBody s :=
  queueCommand_valid _ hv

end

/-! ### The cursor's positions -/

section
variable {q : QueueRegs} {a : Nat}

/-- Counted from the start of the region, the cursor's successor is the next number modulo the region's length. -/
theorem nextQ_eq_mod (ha : inQueueRegion q a) : nextQ q a = q.start + (a - q.start + 1) % queueLength q := by
  obtain ⟨hstart, hstop⟩ := ha
  by_cases h : a = q.stop
  · subst h
    rw [nextQ_stop, queueLength, Nat.mod_self, Nat.add_zero]
  · have hlt : a - q.start + 1 < queueLength q := by unfold queueLength; omega
    rw [nextQ_of_ne_stop h, Nat.mod_eq_of_lt hlt]
    omega

/-- The cursor `n` positions after `a`. -/
def cursorAfter (q : QueueRegs) : Nat → Nat → Nat
  | 0, a => a
  | n + 1, a => cursorAfter q n (nextQ q a)

theorem cursorAfter_eq_mod (ha : inQueueRegion q a) (n : Nat) :
    cursorAfter q n a = q.start + (a - q.start + n) % queueLength q := by
  induction n generalizing a with
  | zero =>
    obtain ⟨hstart, hstop⟩ := ha
    have hlt : a - q.start < queueLength q := by unfold queueLength; omega
    rw [cursorAfter, Nat.add_zero, Nat.mod_eq_of_lt hlt]
    omega
  | succ n ih =>
    rw [cursorAfter, ih (nextQ_inQueueRegion ha), nextQ_eq_mod ha, Nat.add_sub_cancel_left,
      Nat.mod_add_mod, Nat.add_assoc, Nat.add_comm 1 n]

end

section
variable {q : QueueRegs}

/-- `(Q.tail - Q.head) mod L` (R29), written out by whether the elements wrap. -/
theorem queueCount_eq (hhead : inQueueRegion q q.head) (htail : inQueueRegion q q.tail) :
    queueCount q = if q.head ≤ q.tail then q.tail - q.head else q.tail + queueLength q - q.head := by
  have hL : queueLength q = q.stop - q.start + 1 := rfl
  unfold queueCount
  split
  · rw [Nat.sub_add_comm (by omega), Nat.add_mod_right, Nat.mod_eq_of_lt (by omega)]
  · rw [Nat.mod_eq_of_lt (by omega)]

theorem queueCount_le (q : QueueRegs) : queueCount q ≤ queueLength q - 1 :=
  Nat.le_sub_one_of_lt (Nat.mod_lt _ (Nat.succ_pos _))

theorem queueCount_eq_zero_iff (hhead : inQueueRegion q q.head) (htail : inQueueRegion q q.tail) :
    queueCount q = 0 ↔ q.head = q.tail := by
  have hL : queueLength q = q.stop - q.start + 1 := rfl
  rw [queueCount_eq hhead htail]
  split <;> omega

/-- The QUEUE is full exactly when the tail's successor is the head (R135). -/
theorem nextQ_tail_eq_head_iff (hhead : inQueueRegion q q.head) (htail : inQueueRegion q q.tail) :
    nextQ q q.tail = q.head ↔ queueCount q = queueLength q - 1 := by
  have hL : queueLength q = q.stop - q.start + 1 := rfl
  rw [queueCount_eq hhead htail, nextQ]
  split <;> split <;> omega

theorem queueCount_putRegs (c : Config) (hhead : inQueueRegion q q.head) (htail : inQueueRegion q q.tail)
    (hroom : nextQ q q.tail ≠ q.head) : queueCount (putRegs c q) = queueCount q + 1 := by
  have hL : queueLength q = q.stop - q.start + 1 := rfl
  have hput : queueCount (putRegs c q) =
      if q.head ≤ nextQ q q.tail then nextQ q q.tail - q.head else nextQ q q.tail + queueLength q - q.head :=
    queueCount_eq (q := putRegs c q) hhead (nextQ_inQueueRegion htail)
  rw [hput, queueCount_eq hhead htail]
  by_cases hwrap : q.tail = q.stop
  · have hnext : nextQ q q.tail = q.start := if_pos hwrap
    rw [hnext] at hroom ⊢
    split <;> split <;> omega
  · rw [nextQ_of_ne_stop hwrap] at hroom ⊢
    split <;> split <;> omega

theorem queueCount_getRegs (c : Config) (hhead : inQueueRegion q q.head) (htail : inQueueRegion q q.tail)
    (hne : q.head ≠ q.tail) : queueCount (getRegs c q) + 1 = queueCount q := by
  have hL : queueLength q = q.stop - q.start + 1 := rfl
  have hget : queueCount (getRegs c q) =
      if nextQ q q.head ≤ q.tail then q.tail - nextQ q q.head else q.tail + queueLength q - nextQ q q.head :=
    queueCount_eq (q := getRegs c q) (nextQ_inQueueRegion hhead) htail
  rw [hget, queueCount_eq hhead htail]
  by_cases hwrap : q.head = q.stop
  · have hnext : nextQ q q.head = q.start := if_pos hwrap
    rw [hnext]
    split <;> split <;> omega
  · rw [nextQ_of_ne_stop hwrap]
    split <;> split <;> omega

/-- The cursor `queueCount` positions after the head is the tail. -/
theorem cursorAfter_queueCount (hhead : inQueueRegion q q.head) (htail : inQueueRegion q q.tail) :
    cursorAfter q (queueCount q) q.head = q.tail := by
  have hL : queueLength q = q.stop - q.start + 1 := rfl
  have hsum : q.head - q.start + (q.tail + queueLength q - q.head) = q.tail - q.start + queueLength q := by omega
  rw [cursorAfter_eq_mod hhead, queueCount, Nat.add_mod_mod, hsum, Nat.add_mod_right, Nat.mod_eq_of_lt (by omega)]
  omega

/-- No element lies at the tail: fewer positions than the region is long are different ones. -/
theorem cursorAfter_ne_tail (hhead : inQueueRegion q q.head) (htail : inQueueRegion q q.tail) {n : Nat}
    (hn : n < queueCount q) : cursorAfter q n q.head ≠ q.tail := by
  intro h
  have hlt : queueCount q < queueLength q := Nat.mod_lt _ (Nat.succ_pos _)
  rw [← cursorAfter_queueCount hhead htail, cursorAfter_eq_mod hhead, cursorAfter_eq_mod hhead] at h
  have hmod := Nat.sub_mod_eq_zero_of_mod_eq (Nat.add_left_cancel h).symm
  rw [Nat.add_sub_add_left, Nat.mod_eq_of_lt (by omega)] at hmod
  omega

end

/-! ### Walks -/

section
variable {q : QueueRegs} {m : Memory}

@[simp] theorem queueWalk_length (q : QueueRegs) (m : Memory) (n a : Nat) : (queueWalk q m n a).length = n := by
  induction n generalizing a with
  | zero => rfl
  | succ n ih => rw [queueWalk, List.length_cons, ih]

/-- A walk depends on the region alone, not on the cursors. -/
theorem queueWalk_congr {q' : QueueRegs} (hstart : q'.start = q.start) (hstop : q'.stop = q.stop) (n a : Nat) :
    queueWalk q' m n a = queueWalk q m n a := by
  induction n generalizing a with
  | zero => rfl
  | succ n ih => rw [queueWalk, queueWalk, ih, nextQ, nextQ, hstart, hstop]

theorem queueWalk_succ_last (n a : Nat) :
    queueWalk q m (n + 1) a = queueWalk q m n a ++ [Memory.read m (cursorAfter q n a)] := by
  induction n generalizing a with
  | zero => rfl
  | succ n ih => rw [queueWalk, ih, queueWalk, List.cons_append, cursorAfter]

theorem queueWalk_write {aw b : Nat} (v : Byte) (hm : Memory.wf aw m = true) {n a : Nat}
    (hb : ∀ k < n, cursorAfter q k a ≠ b) : queueWalk q (Memory.write m b v) n a = queueWalk q m n a := by
  induction n generalizing a with
  | zero => rfl
  | succ n ih =>
    have hread : Memory.read (Memory.write m b v) a = Memory.read m a :=
      (Memory.read_write hm).trans (if_neg (hb 0 (Nat.succ_pos n)))
    rw [queueWalk, queueWalk, hread, ih fun k hk => hb (k + 1) (Nat.succ_lt_succ hk)]

end

/-! ### Its elements -/

section
variable {s : State}

theorem queueContents_length (s : State) : (queueContents s).length = queueCount s.queue :=
  queueWalk_length _ _ _ _

theorem queueContents_put (v : Byte) (h : Inv s) (hv : s.queue.valid = true)
    (hroom : nextQ s.queue s.queue.tail ≠ s.queue.head) :
    queueContents { memWrite s.queue.tail v s with queue := putRegs s.config s.queue } = queueContents s ++ [v] := by
  obtain ⟨-, hhead, htail⟩ := h.queue hv
  have hcount := queueCount_putRegs s.config hhead htail hroom
  calc queueContents { memWrite s.queue.tail v s with queue := putRegs s.config s.queue }
      = queueWalk (putRegs s.config s.queue) (Memory.write s.mem s.queue.tail v) (queueCount s.queue + 1)
          s.queue.head := by
        rw [← hcount]; rfl
    _ = queueWalk s.queue (Memory.write s.mem s.queue.tail v) (queueCount s.queue + 1) s.queue.head :=
        queueWalk_congr (q := s.queue) (q' := putRegs s.config s.queue) rfl rfl _ _
    _ = queueContents s ++ [v] := by
        rw [queueWalk_succ_last, queueWalk_write v h.mem fun k hk => cursorAfter_ne_tail hhead htail hk,
          cursorAfter_queueCount hhead htail, Memory.read_write h.mem, if_pos rfl]
        rfl

theorem queueContents_get (h : Inv s) (hv : s.queue.valid = true) (hne : s.queue.head ≠ s.queue.tail) :
    queueContents s
      = memRead s s.queue.head :: queueContents { s with queue := getRegs s.config s.queue } := by
  obtain ⟨-, hhead, htail⟩ := h.queue hv
  rw [queueContents, ← queueCount_getRegs s.config hhead htail hne, queueWalk]
  exact congrArg (List.cons _) (queueWalk_congr (q := s.queue) (q' := getRegs s.config s.queue) rfl rfl _ _).symm

end

/-- Settles O52: the list has `queueCount` elements; a put writes at the tail, where no element lies, and a get moves
the head past the first. -/
theorem queueRefinesABoundedFifo : Obligations.QueueRefinesABoundedFifo := by
  intro s h hv
  obtain ⟨-, hhead, htail⟩ := h.queue hv
  refine ⟨?bound, fun v => ⟨fun hlen => ?full, fun hlen => ?room⟩, fun hnil => ?empty, fun v l hl => ?nonempty⟩
  case bound => exact (queueContents_length s).symm ▸ queueCount_le _
  case full =>
    rw [queueContents_length] at hlen
    have hfull := (nextQ_tail_eq_head_iff hhead htail).2 hlen
    exact (exec_queuePut_valid v hv).trans (queuePutBody_full v hfull)
  case room =>
    rw [queueContents_length] at hlen
    have hroom := mt (nextQ_tail_eq_head_iff hhead htail).1 (Nat.ne_of_lt hlen)
    exact ⟨_, (exec_queuePut_valid v hv).trans (queuePutBody_room v hroom), rfl, queueContents_put v h hv hroom⟩
  case empty =>
    have hcount : queueCount s.queue = 0 := by rw [← queueContents_length, hnil]; rfl
    have hempty := (queueCount_eq_zero_iff hhead htail).1 hcount
    exact (exec_queueGet_valid hv).trans (queueGetBody_empty hempty)
  case nonempty =>
    have hcount : queueCount s.queue = l.length + 1 := by rw [← queueContents_length, hl]; rfl
    have hne := mt (queueCount_eq_zero_iff hhead htail).2 (by omega)
    rw [queueContents_get h hv hne] at hl
    obtain ⟨rfl, hrest⟩ := List.cons.inj hl
    exact ⟨_, (exec_queueGet_valid hv).trans (queueGetBody_nonempty hne), rfl, hrest⟩

end Sys2Proof.Machine

/-! ## Registers that decide nothing (10_state.md R26, R30, R36, 41_queue.md R145) -/

namespace Sys2Proof.Machine

/-- How to blank registers that no step reads, but for QUEUE_GET_LAST_HEAD: a map for `S.data`, `I.byte_code`,
`Q.last_head` and the rule that updates it. Blanking twice is blanking once, and the blanked new `Q.last_head` depends
only on what is blanked before. -/
structure Blanking where
  data : Nat → Nat
  byteCode : Nat → Nat
  lastHead : Nat → Nat
  rule : LastHeadRule → LastHeadRule
  data_data : ∀ a, data (data a) = data a
  byteCode_byteCode : ∀ a, byteCode (byteCode a) = byteCode a
  lastHead_lastHead : ∀ a, lastHead (lastHead a) = lastHead a
  rule_rule : ∀ x, rule (rule x) = rule x
  lastHead_after : ∀ (c : Config) (op : QueueOp) (w : Bool) (q : QueueRegs),
    lastHead (lastHeadAfter { c with lastHeadRule := rule c.lastHeadRule } op w
        { q with lastHead := lastHead q.lastHead })
      = lastHead (lastHeadAfter c op w q)

namespace Blanking

/-- The state with the registers blanked. -/
def blank (b : Blanking) (s : State) : State :=
  { s with
    stack := { s.stack with data := b.data s.stack.data }
    queue := { s.queue with lastHead := b.lastHead s.queue.lastHead }
    interp := { s.interp with byteCode := b.byteCode s.interp.byteCode }
    config := { s.config with lastHeadRule := b.rule s.config.lastHeadRule } }

variable (b : Blanking)

@[simp] theorem blank_blank (s : State) : b.blank (b.blank s) = b.blank s := by
  simp [blank, b.data_data, b.byteCode_byteCode, b.lastHead_lastHead, b.rule_rule]

@[simp] theorem view_blank (r : Result) : viewOutcome b.blank (viewOutcome b.blank r) = viewOutcome b.blank r := by
  cases r with
  | next s => exact congrArg Host.Outcome.next (b.blank_blank s)
  | fault | refused => rfl

/-! ### Operations that commute with blanking -/

/-- Blanking before the operation or after it gives the same outcome. -/
def Commutes (op : State → Result) : Prop := ∀ s, op (b.blank s) = viewOutcome b.blank (op s)

/-- Blanking before the operation as well as after it gives the same outcome as after it alone. -/
def Ignores (op : State → Result) : Prop := ∀ s, viewOutcome b.blank (op (b.blank s)) = viewOutcome b.blank (op s)

variable {b}

theorem Commutes.ignores {op : State → Result} (h : b.Commutes op) : b.Ignores op := by
  intro s
  rw [h s, view_blank]

/-- A command that does nothing but answer ignores what is blanked. -/
theorem view_respond {s : State} {r : Response} :
    viewOutcome b.blank (.next (respond r (b.blank s))) = viewOutcome b.blank (.next (respond r s)) :=
  congrArg Host.Outcome.next (b.blank_blank (respond r s))

/-! ### The checks of a command -/

section
variable {record : Bool} {body : State → Result}

theorem checked_blank {u : UnitName} (hb : b.Ignores body) (valid : Bool) (s : State) :
    viewOutcome b.blank (checked record valid u body (b.blank s))
      = viewOutcome b.blank (checked record valid u body s) := by
  cases record with
  | false => exact view_respond
  | true =>
    cases valid with
    | false => rw [checked_invalid rfl, checked_invalid rfl]
    | true => rw [checked_valid rfl, checked_valid rfl, hb s]

theorem ignores_stackCommand (hb : b.Ignores body) : b.Ignores (stackCommand record body) :=
  fun s => checked_blank hb s.stack.valid s

theorem ignores_queueCommand (hb : b.Ignores body) : b.Ignores (queueCommand record body) :=
  fun s => checked_blank hb s.queue.valid s

theorem ignores_interpCommand (hb : b.Ignores body) : b.Ignores (interpCommand record body) :=
  fun s => checked_blank hb s.interp.valid s

theorem ignores_activeCommand (hb : b.Ignores body) : b.Ignores (activeCommand record body) := by
  refine ignores_interpCommand fun s => ?_
  have hstate : (b.blank s).interp.state = s.interp.state := rfl
  simp only [hstate]
  split
  · exact view_respond
  · exact hb s

end

/-! ### The byte-code fetch, the push and exec -/

theorem takeByte_blank (z : Bool) (o : Option Byte) (s : State) :
    takeByte z o (b.blank s) = Prod.map id b.blank (takeByte z o s) := by
  cases o with
  | none => rfl
  | some v =>
    simp only [takeByte]
    split <;> rfl

theorem stackPushCore_blank (v : Byte) (s : State) :
    stackPushCore v (b.blank s) = Prod.map id b.blank (stackPushCore v s) := by
  rcases stackPushCore_cases v s with ⟨ht, e⟩ | ⟨ht, e⟩ <;> rw [e]
  · exact if_pos ht
  · exact if_neg ht

/-- The result of a body with its state blanked. -/
def viewBody (b : Blanking) : BodyResult → BodyResult :=
  Except.map (Prod.map id b.blank)

/-- Blanking before a body or after it gives the same result. -/
def BodyCommutes (b : Blanking) (body : State → BodyResult) : Prop := ∀ s, body (b.blank s) = b.viewBody (body s)

theorem bodyCommutes_lbBody (imm8 : Option Byte) : b.BodyCommutes (lbBody imm8) := by
  intro s
  have hop : lbOperand imm8 (b.blank s) = Prod.map id b.blank (lbOperand imm8 s) := takeByte_blank _ _ _
  rw [lbBody, lbBody, hop]
  obtain ⟨_ | v, t⟩ := lbOperand imm8 s
  · rfl
  · change (if t.stack.valid = false then _ else Except.ok (stackPushCore v (b.blank t)))
      = b.viewBody (if t.stack.valid = false then _ else Except.ok (stackPushCore v t))
    split
    · rfl
    · exact congrArg Except.ok (stackPushCore_blank v t)

theorem bodyCommutes_dispatchBody (op : Byte) : b.BodyCommutes (dispatchBody op) := by
  intro s
  unfold dispatchBody
  split
  · rfl
  · split
    · exact bodyCommutes_lbBody _ s
    · rfl

theorem BodyCommutes.execCore {body : State → BodyResult} (h : b.BodyCommutes body) :
    b.BodyCommutes (execCore body) := by
  intro s
  have hbody : body (setIState .executingInstruction (b.blank s))
      = b.viewBody (body (setIState .executingInstruction s)) :=
    h (setIState .executingInstruction s)
  rw [Machine.execCore, Machine.execCore, hbody]
  match body (setIState .executingInstruction s) with
  | .error f => rfl
  | .ok (k, t) => cases k <;> rfl

theorem BodyCommutes.continueRun {body : State → BodyResult} (h : b.BodyCommutes body) :
    b.Commutes (fun s => continueRun (Machine.execCore body s)) := by
  intro s
  simp only [h.execCore s]
  match Machine.execCore body s with
  | .error f => rfl
  | .ok (k, t) => cases k <;> rfl

/-! ### The bodies of the commands -/

theorem commutes_stackPushBody (v : Byte) : b.Commutes (stackPushBody v) := by
  intro s
  rw [stackPushBody, stackPushBody, stackPushCore_blank]
  obtain ⟨k, t⟩ := stackPushCore v s
  cases k <;> rfl

theorem commutes_stackPopBody : b.Commutes stackPopBody := by
  intro s
  by_cases ht : s.stack.top = s.stack.bottom
  · rw [stackPopBody_empty ht]
    exact stackPopBody_empty (s := b.blank s) ht
  · rw [stackPopBody_nonempty ht]
    exact stackPopBody_nonempty (s := b.blank s) ht

theorem commutes_getNextBytecodeBody : b.Commutes getNextBytecodeBody := by
  intro s
  have hfetch : fetchCore (b.blank s) = Prod.map id b.blank (fetchCore s) := takeByte_blank _ _ _
  rw [getNextBytecodeBody, getNextBytecodeBody, hfetch]
  obtain ⟨_ | v, t⟩ := fetchCore s <;> rfl

theorem commutes_interpExecBody (op : Byte) : b.Commutes (interpExecBody op) := by
  intro s
  rw [interpExecBody, interpExecBody, (bodyCommutes_dispatchBody op).execCore s]
  match Machine.execCore (dispatchBody op) s with
  | .error f => rfl
  | .ok (k, t) => cases k <;> rfl

section
variable {s : State} {r : Response}

/-- New registers of a unit make no difference to what is blanked in the others. -/
theorem view_withStack (x : StackRegs) :
    viewOutcome b.blank (.next (respond r { b.blank s with stack := x }))
      = viewOutcome b.blank (.next (respond r { s with stack := x })) := by
  simp [viewOutcome, blank, respond, b.byteCode_byteCode, b.lastHead_lastHead, b.rule_rule]

theorem view_withInterp (x : InterpRegs) :
    viewOutcome b.blank (.next (respond r { b.blank s with interp := x }))
      = viewOutcome b.blank (.next (respond r { s with interp := x })) := by
  simp [viewOutcome, blank, respond, b.data_data, b.lastHead_lastHead, b.rule_rule]

theorem view_withQueue {x y : QueueRegs}
    (h : { x with lastHead := b.lastHead x.lastHead } = { y with lastHead := b.lastHead y.lastHead }) :
    viewOutcome b.blank (.next (respond r { b.blank s with queue := x }))
      = viewOutcome b.blank (.next (respond r { s with queue := y })) := by
  simp [viewOutcome, blank, respond, b.data_data, b.byteCode_byteCode, b.rule_rule, h]

end

/-- A put gives `Q.last_head` the rule's value, which blanking takes for the same (R146). -/
theorem ignores_queuePutBody (v : Byte) : b.Ignores (queuePutBody v) := by
  intro s
  by_cases ht : nextQ s.queue s.queue.tail = s.queue.head
  · rw [queuePutBody_full v ht, queuePutBody_full (s := b.blank s) v ht]
    exact view_respond
  · rw [queuePutBody_room v ht, queuePutBody_room (s := b.blank s) v ht]
    have hlast := b.lastHead_after s.config .put (s.queue.tail = s.queue.stop) s.queue
    exact view_withQueue (s := memWrite s.queue.tail v s)
      (congrArg (fun a => { putRegs s.config s.queue with lastHead := a }) hlast)

theorem ignores_queueGetBody : b.Ignores queueGetBody := by
  intro s
  by_cases ht : s.queue.head = s.queue.tail
  · rw [queueGetBody_empty ht, queueGetBody_empty (s := b.blank s) ht]
    exact view_respond
  · rw [queueGetBody_nonempty ht, queueGetBody_nonempty (s := b.blank s) ht]
    have hlast := b.lastHead_after s.config .get (s.queue.head = s.queue.stop) s.queue
    exact view_withQueue (congrArg (fun a => { getRegs s.config s.queue with lastHead := a }) hlast)

theorem ignores_execStackInit (r : Bool) (a0 a1 a2 : Nat) : b.Ignores (execStackInit r a0 a1 a2) := by
  intro s
  unfold execStackInit
  split
  · exact view_respond
  · split
    · exact view_respond
    · exact view_withStack _

theorem ignores_execInterpInit (r sr qr : Bool) (a0 a1 : Nat) : b.Ignores (execInterpInit r sr qr a0 a1) := by
  intro s
  unfold execInterpInit
  split
  · exact view_respond
  · split
    · exact view_respond
    · exact view_withInterp _

theorem ignores_execQueueInit (r : Bool) (a0 a1 : Nat) : b.Ignores (execQueueInit r a0 a1) := by
  intro s
  unfold execQueueInit
  split
  · exact view_respond
  · split
    · exact view_respond
    · exact view_withQueue rfl

/-! ### Instructions and steps -/

/-- An instruction ignores what is blanked, but for QUEUE_GET_LAST_HEAD where `Q.last_head` is. -/
theorem ignores_exec (i : Instr) (hi : i = .queueGetLastHead true → ∀ a, b.lastHead a = a) : b.Ignores (exec i) := by
  cases i with
  | terminator => exact Commutes.ignores fun _ => rfl
  | no => exact Commutes.ignores fun _ => rfl
  | lb imm8 => exact (bodyCommutes_lbBody imm8).continueRun.ignores
  | undefined op => exact Commutes.ignores fun _ => rfl
  | stackInit r a0 a1 a2 => exact ignores_execStackInit r a0 a1 a2
  | stackPush r v => exact ignores_stackCommand (commutes_stackPushBody v).ignores
  | stackPop r => exact ignores_stackCommand commutes_stackPopBody.ignores
  | stackSize | stackGetBottom | stackGetTop | stackGetTopSentinel =>
    exact ignores_stackCommand (Commutes.ignores fun _ => rfl)
  | queueInit r a0 a1 => exact ignores_execQueueInit r a0 a1
  | queuePut r v => exact ignores_queueCommand (ignores_queuePutBody v)
  | queueGet r => exact ignores_queueCommand ignores_queueGetBody
  | queueGetStart | queueGetEnd | queueGetHead | queueGetTail =>
    exact ignores_queueCommand (Commutes.ignores fun _ => rfl)
  | queueGetLastHead r =>
    cases r with
    | false => exact fun _ => view_respond
    | true =>
      change b.Ignores (execQueueGetLastHead true)
      exact ignores_queueCommand (body := fun s => returnAddr s.queue.lastHead s)
        (Commutes.ignores fun s => congrArg (returnAddr · (b.blank s)) (hi rfl s.queue.lastHead))
  | interpInit r sr qr a0 a1 => exact ignores_execInterpInit r sr qr a0 a1
  | interpGetNextBytecode r => exact ignores_activeCommand commutes_getNextBytecodeBody.ignores
  | interpExec r op => exact ignores_activeCommand (commutes_interpExecBody op).ignores
  | interpRun r =>
    exact ignores_activeCommand (body := fun s => .next { s with runActive := true }) (Commutes.ignores fun _ => rfl)
  | interpGetState | interpGetPtr => exact ignores_interpCommand (Commutes.ignores fun _ => rfl)
  | reservedCommand cmd => exact fun _ => rfl

theorem fetchInstr_blank (s : State) :
    fetchInstr (b.blank s) = (fetchInstr s).map (Prod.map id b.blank) := by
  have hbytes : bytesAtCursor (b.blank s) = bytesAtCursor s := rfl
  rw [fetchInstr, fetchInstr, hbytes]
  match decodeIL (bytesAtCursor s) with
  | .error _ => rfl
  | .ok (i, _) => cases i <;> rfl

/-- A step ignores what is blanked, but for a QUEUE_GET_LAST_HEAD where `Q.last_head` is. -/
theorem view_step (s : State)
    (hs : ∀ p, nextInput s = some (.command p) → decodeCommand s.config.addrWidth p = .queueGetLastHead true →
      ∀ a, b.lastHead a = a) :
    viewOutcome b.blank (step (b.blank s)) = viewOutcome b.blank (step s) := by
  cases hr : s.runActive with
  | true =>
    have hfetch := b.fetchInstr_blank s
    cases hf : fetchInstr s with
    | none =>
      rw [hf] at hfetch
      rw [step_of_exhausted hr hf, step_of_exhausted (s := b.blank s) hr hfetch]
      exact congrArg Host.Outcome.next (b.blank_blank (endRun .ok (stopInterp s)))
    | some p =>
      obtain ⟨i, u⟩ := p
      rw [hf] at hfetch
      rw [step_of_fetchInstr hr hf, step_of_fetchInstr (s := b.blank s) hr hfetch]
      refine ignores_exec i (fun hi => ?_) u
      have hil := (fetchInstr_il hf).1
      rw [hi] at hil
      cases hil
  | false =>
    cases hp : s.pending with
    | nil =>
      rw [step_of_no_input hr hp, step_of_no_input (s := b.blank s) hr hp]
      exact congrArg Host.Outcome.next (b.blank_blank s)
    | cons x rest =>
      cases x with
      | command p =>
        rw [step_of_command hr hp, step_of_command (s := b.blank s) hr hp]
        exact ignores_exec _ (hs p (nextInput_of_pending hr hp)) { s with pending := rest }
      | poke a v =>
        rw [step_of_poke hr hp, step_of_poke (s := b.blank s) hr hp]
        exact congrArg Host.Outcome.next (b.blank_blank (hostPoke a v { s with pending := rest }))
      | reset =>
        rw [step_of_reset hr hp, step_of_reset (s := b.blank s) hr hp]
        simp [viewOutcome, blank, hostReset, State.resetOf, b.rule_rule]

end Blanking

/-! ### The obligations -/

/-- Blanks `Q.last_head` and the rule that updates it. -/
def lastHeadBlanking : Blanking where
  data := id
  byteCode := id
  lastHead := fun _ => 0
  rule := fun _ => .endOnWrap
  data_data _ := rfl
  byteCode_byteCode _ := rfl
  lastHead_lastHead _ := rfl
  rule_rule _ := rfl
  lastHead_after _ _ _ _ := rfl

/-- Blanks `S.data` and `I.byte_code`. -/
def unreadBlanking : Blanking where
  data := fun _ => 0
  byteCode := fun _ => 0
  lastHead := id
  rule := id
  data_data _ := rfl
  byteCode_byteCode _ := rfl
  lastHead_lastHead _ := rfl
  rule_rule _ := rfl
  lastHead_after _ _ _ _ := rfl

theorem blank_lastHeadBlanking : lastHeadBlanking.blank = blankLastHead := rfl

theorem blank_unreadBlanking : unreadBlanking.blank = blankUnread := rfl

/-- Settles O41: a step of either state looks like a step of the state with the two blanked. -/
theorem lastHeadDecidesNothing : Obligations.LastHeadDecidesNothing := by
  intro s t h hs
  have hinput : nextInput (blankLastHead s) = nextInput (blankLastHead t) := congrArg nextInput h
  have hwidth : (blankLastHead s).config.addrWidth = (blankLastHead t).config.addrWidth := by rw [h]
  have hdecode (p : PortInput) : decodeCommand s.config.addrWidth p = decodeCommand t.config.addrWidth p :=
    congrArg (decodeCommand · p) hwidth
  rw [← blank_lastHeadBlanking] at h ⊢
  rw [← Blanking.view_step s fun p hp hi => absurd hi (hs p hp), h]
  exact Blanking.view_step t fun p hp hi => absurd ((hdecode p).trans hi) (hs p (hinput.trans hp))

/-- Settles O42: a step of either state looks like a step of the state with the two blanked. -/
theorem dataAndByteCodeAreNeverRead : Obligations.DataAndByteCodeAreNeverRead := by
  intro s t h
  rw [← blank_unreadBlanking] at h ⊢
  rw [← Blanking.view_step s fun _ _ _ _ => rfl, h]
  exact Blanking.view_step t fun _ _ _ _ => rfl

end Sys2Proof.Machine

/-! ## MEM: the canonical form, the frame of an instruction, and the regions (20_memory.md R50, R51, R52, R60, R62) -/

namespace Sys2Proof.Machine

/-! ### Canonical memories that read alike are one list -/

section
variable {aw lo k a : Nat} {v u : Byte} {m n : Memory}

theorem Memory.wfFrom_cons_iff :
    Memory.wfFrom aw lo ((k, v) :: m) = true ↔
      lo ≤ k ∧ k < 2 ^ aw ∧ v ≠ Memory.unlisted ∧ Memory.wfFrom aw (k + 1) m = true := by
  simp [Memory.wfFrom, and_assoc]

theorem Memory.read_head : Memory.read ((k, v) :: m) k = v := if_pos rfl

theorem Memory.read_tail (h : k ≠ a) : Memory.read ((k, v) :: m) a = Memory.read m a := if_neg h

/-- A memory listed from `lo` on says something else than `unlisted` only from `lo` on. -/
theorem Memory.le_of_read_ne_unlisted (h : Memory.wfFrom aw lo m = true) (ha : Memory.read m a ≠ Memory.unlisted) :
    lo ≤ a :=
  Nat.le_of_not_lt fun hlt => ha (Memory.read_below h hlt)

/-- The first cell of a canonical memory says something else than `unlisted`. -/
theorem Memory.read_head_ne_unlisted (h : Memory.wfFrom aw lo ((k, v) :: m) = true) :
    Memory.read ((k, v) :: m) k ≠ Memory.unlisted := by
  obtain ⟨-, -, hv, -⟩ := Memory.wfFrom_cons_iff.1 h
  rwa [Memory.read_head]

/-- The first address of one of two memories that read alike is at most that of the other. -/
theorem Memory.first_le_first {j : Nat} (hm : Memory.wfFrom aw lo ((k, v) :: m) = true)
    (hn : Memory.wfFrom aw lo ((j, u) :: n) = true)
    (h : ∀ a, a < 2 ^ aw → Memory.read ((k, v) :: m) a = Memory.read ((j, u) :: n) a) : j ≤ k := by
  obtain ⟨-, hk, -, -⟩ := Memory.wfFrom_cons_iff.1 hm
  obtain ⟨-, hj⟩ := Memory.wfFrom_cons_iff.1 hn
  have hfrom : Memory.wfFrom aw j ((j, u) :: n) = true := Memory.wfFrom_cons_iff.2 ⟨Nat.le_refl j, hj⟩
  exact Memory.le_of_read_ne_unlisted hfrom (h k hk ▸ Memory.read_head_ne_unlisted hm)

/-- The memories after a first cell of one address read alike where the whole memories do. -/
theorem Memory.tails_read_alike (hm : Memory.wfFrom aw (k + 1) m = true) (hn : Memory.wfFrom aw (k + 1) n = true)
    (h : Memory.read ((k, v) :: m) a = Memory.read ((k, u) :: n) a) : Memory.read m a = Memory.read n a := by
  by_cases hka : k = a
  · subst hka
    rw [Memory.read_below hm (Nat.lt_succ_self k), Memory.read_below hn (Nat.lt_succ_self k)]
  · rwa [Memory.read_tail hka, Memory.read_tail hka] at h

/-- By induction on the two lists: their first cells have one address and one byte, and the rest reads alike. -/
theorem Memory.eq_of_read_eq (hm : Memory.wfFrom aw lo m = true) (hn : Memory.wfFrom aw lo n = true)
    (h : ∀ a, a < 2 ^ aw → Memory.read m a = Memory.read n a) : m = n := by
  induction m generalizing lo n with
  | nil =>
    cases n with
    | nil => rfl
    | cons c n =>
      obtain ⟨-, hj, -⟩ := Memory.wfFrom_cons_iff.1 hn
      exact absurd (h _ hj).symm (Memory.read_head_ne_unlisted hn)
  | cons c m ih =>
    obtain ⟨k, v⟩ := c
    obtain ⟨-, hk, -, hm'⟩ := Memory.wfFrom_cons_iff.1 hm
    cases n with
    | nil => exact absurd (h k hk) (Memory.read_head_ne_unlisted hm)
    | cons d n =>
      obtain ⟨j, u⟩ := d
      obtain ⟨-, -, -, hn'⟩ := Memory.wfFrom_cons_iff.1 hn
      obtain rfl : j = k := Nat.le_antisymm (Memory.first_le_first hm hn h)
        (Memory.first_le_first hn hm fun a ha => (h a ha).symm)
      obtain rfl : v = u := by simpa [Memory.read_head] using h j hk
      rw [ih hm' hn' fun a ha => Memory.tails_read_alike hm' hn' (h a ha)]

end

/-! ### What an instruction does to MEM -/

/-- The instructions that reach MEM through the STACK: its commands, LB and an INTERP_EXEC of LB (R60). -/
def reachesStack (i : Instr) : Prop :=
  isStackCommand i = true ∨ (∃ v, i = .lb v) ∨ ∃ r, i = .interpExec r 0x09#8

/-- Every way an instruction takes the memory of `s` to another: a write at its store address, the top of a STACK with
room or the tail of the QUEUE, or none. -/
inductive MemChange (i : Instr) (s : State) : Memory → Prop where
  | keeps : MemChange i s s.mem
  | push (v : Byte) (ha : storeAddr s i = some s.stack.top) (hi : reachesStack i) (hv : s.stack.valid = true)
      (ht : s.stack.top ≠ s.stack.topSentinel) : MemChange i s (Memory.write s.mem s.stack.top v)
  | put (v : Byte) (ha : storeAddr s i = some s.queue.tail) (hi : isQueueCommand i = true)
      (hv : s.queue.valid = true) : MemChange i s (Memory.write s.mem s.queue.tail v)

theorem LbEffect.memChange {imm8 : Option Byte} {i : Instr} {s t : State} {k : Kind} (h : LbEffect imm8 s k t)
    (ha : storeAddr s i = some s.stack.top) (hi : reachesStack i) : MemChange i s t.mem := by
  cases h with
  | pushes v hv hz hs ht => exact .push v ha hi hs ht
  | ends | overflows => exact .keeps

theorem Effect.memChange {i : Instr} {s t : State} (h : Effect i s t) : MemChange i s t.mem := by
  cases h with
  | stackPush hv ht => exact .push _ rfl (.inl rfl) hv ht
  | queuePut hv ht => exact .put _ rfl rfl hv
  | execLbOk _ _ h | execLbFails _ _ _ _ h => exact h.memChange rfl (.inr (.inr ⟨_, rfl⟩))
  | lbOk h | lbEnds h | lbOverflows h => exact h.memChange rfl (.inr (.inl ⟨_, rfl⟩))
  | _ => exact .keeps

section
variable {i : Instr} {s : State} {m : Memory} {a b : Nat}

theorem MemChange.eq_of_storeless (h : MemChange i s m) (hn : storeAddr s i = none) : m = s.mem := by
  cases h with
  | keeps => rfl
  | push _ ha | put _ ha => rw [ha] at hn; cases hn

/-- A memory that reads otherwise at an address was written there: the address is the instruction's store address. -/
theorem MemChange.storeAddr_of_read_ne (h : MemChange i s m) (hm : Memory.wf s.config.addrWidth s.mem = true)
    (hb : Memory.read m b ≠ Memory.read s.mem b) : storeAddr s i = some b := by
  cases h with
  | keeps => exact absurd rfl hb
  | push v ha | put v ha =>
    have hba : b = _ := Decidable.byContradiction fun hne => hb ((Memory.read_write hm).trans (if_neg hne))
    rw [ha, hba]

/-- Under the invariant the store address of an instruction that writes lies in the region of its unit. -/
theorem MemChange.region_of_ne (h : MemChange i s m) (hs : Inv s) (hne : m ≠ s.mem) (ha : storeAddr s i = some a) :
    (isQueueCommand i = true ∧ s.queue.valid = true ∧ inQueueRegion s.queue a) ∨
      (s.stack.valid = true ∧ inStackRegion s.stack a ∧ reachesStack i) := by
  cases h with
  | keeps => exact absurd rfl hne
  | push v hat hi hv ht =>
    obtain rfl : s.stack.top = a := Option.some.inj (hat.symm.trans ha)
    obtain ⟨-, -, hbottom, -⟩ := hs.stack hv
    exact .inr ⟨hv, ⟨hbottom, hs.stack.top_lt_topSentinel hv ht⟩, hi⟩
  | put v hat hi hv =>
    obtain rfl : s.queue.tail = a := Option.some.inj (hat.symm.trans ha)
    obtain ⟨-, -, htail⟩ := hs.queue hv
    exact .inl ⟨hi, hv, htail⟩

end

/-! ### The obligations -/

/-- Settles O34: what changes MEM has a store address. -/
theorem otherInstructionsLeaveMemory : Obligations.OtherInstructionsLeaveMemory := by
  intro i s t hn hexec a
  rw [(exec_effect hexec).memChange.eq_of_storeless hn]

/-- Settles O35: a byte that reads otherwise is the one at the store address. -/
theorem storesChangeOneByte : Obligations.StoresChangeOneByte := by
  intro i s t a hm ha hexec b hb
  refine Decidable.byContradiction fun hne => ?_
  have hstore := (exec_effect hexec).memChange.storeAddr_of_read_ne hm hne
  exact hb (Option.some.inj (hstore.symm.trans ha))

/-- Settles O40: the byte is the one at the store address, the top of a STACK with room or the tail of the QUEUE, which
the invariant puts inside the region. -/
theorem writesStayInsideTheRegions : Obligations.WritesStayInsideTheRegions := by
  intro i s t a hs hexec hne
  have hchange := (exec_effect hexec).memChange
  exact hchange.region_of_ne hs (fun e => hne (congrArg (Memory.read · a) e))
    (hchange.storeAddr_of_read_ne hs.mem hne)

/-- Settles O50: the laws of a write, and the induction on two canonical lists. -/
theorem memoryReadsTheLatestWriteAndIsCanonical : Obligations.MemoryReadsTheLatestWriteAndIsCanonical :=
  ⟨fun _ _ _ _ hm => ⟨Memory.wf_write hm, Memory.read_write hm⟩, fun _ _ _ => Memory.eq_of_read_eq⟩

/-- Settles O14: the three forms of the host's list of inputs. -/
theorem stepTakesHostWritesAndReset : Obligations.StepTakesHostWritesAndReset :=
  fun _ hr => ⟨step_of_no_input hr, fun _ _ _ => step_of_poke hr, fun _ => step_of_reset hr⟩

end Sys2Proof.Machine

/-! ## The encodings and the responses (30_encoding.md, 60_exceptions.md R224 to R226) -/

namespace Sys2Proof.Machine

/-! ### The byte code: one equation per first byte (R71 to R74) -/

section
variable {op : Byte} (rest : List Byte)

@[simp] theorem decodeIL_terminator : decodeIL (0x00#8 :: rest) = .ok (.terminator, rest) := rfl

@[simp] theorem decodeIL_no : decodeIL (0x08#8 :: rest) = .ok (.no, rest) := rfl

@[simp] theorem decodeIL_lb : decodeIL (0x09#8 :: rest) = .ok (.lb rest.head?, rest.tail) := rfl

theorem isUndefinedOpcode_iff : isUndefinedOpcode op = true ↔ op ≠ 0x00#8 ∧ op ≠ 0x08#8 ∧ op ≠ 0x09#8 := by
  simp [isUndefinedOpcode, and_assoc]

theorem decodeIL_undefined (h : isUndefinedOpcode op = true) : decodeIL (op :: rest) = .ok (.undefined op, rest) := by
  obtain ⟨h0, h8, h9⟩ := isUndefinedOpcode_iff.1 h
  rw [decodeIL, if_neg h0, if_neg h8, if_neg h9]

/-- A first byte alone makes the byte code decode, to a well-formed instruction (R74, R76). -/
theorem decodeIL_cons_wellFormed (op : Byte) :
    ∃ i tl, decodeIL (op :: rest) = .ok (i, tl) ∧ i.wellFormed = true := by
  by_cases h0 : op = 0x00#8
  · subst h0
    exact ⟨_, _, decodeIL_terminator rest, rfl⟩
  by_cases h8 : op = 0x08#8
  · subst h8
    exact ⟨_, _, decodeIL_no rest, rfl⟩
  by_cases h9 : op = 0x09#8
  · subst h9
    exact ⟨_, _, decodeIL_lb rest, rfl⟩
  have h := isUndefinedOpcode_iff.2 ⟨h0, h8, h9⟩
  exact ⟨_, _, decodeIL_undefined rest h, h⟩

end

theorem decode_bytes_of_decodeIL {l tl : List Byte} {i : Instr} (h : decodeIL l = .ok (i, tl)) :
    decode (.bytes l) = .ok i := by
  rw [decode, h]

theorem decode_bytes_cons_wellFormed (op : Byte) (rest : List Byte) :
    ∃ i, decode (.bytes (op :: rest)) = .ok i ∧ i.wellFormed = true := by
  obtain ⟨i, tl, h, hi⟩ := decodeIL_cons_wellFormed rest op
  exact ⟨i, decode_bytes_of_decodeIL h, hi⟩

/-! ### The command port: the table of R82 and the reserved commands (R84) -/

/-- The fields of a CMD value by arithmetic: the unit, `CMD[5:4]` and the operation (R82, R84). -/
theorem isReservedCmd_iff (cmd : BitVec 8) :
    isReservedCmd cmd = true ↔
      cmd.toNat / 64 = 3 ∨ cmd.toNat / 16 % 4 ≠ 0 ∨ (cmd.toNat / 64 = 0 ∧ 7 ≤ cmd.toNat % 16) ∨
        (cmd.toNat / 64 = 1 ∧ 8 ≤ cmd.toNat % 16) ∨ (cmd.toNat / 64 = 2 ∧ 6 ≤ cmd.toNat % 16) := by
  have hlt := cmd.isLt
  simp only [isReservedCmd, ← BitVec.toNat_inj, BitVec.extractLsb'_toNat, Nat.shiftRight_eq_div_pow,
    Bool.or_eq_true, Bool.and_eq_true, decide_eq_true_eq, BitVec.ofNat_eq_ofNat, BitVec.toNat_ofNat, Nat.reducePow,
    ne_eq]
  omega

/-- A CMD value selects a command of R82, or it is reserved and decodes to the reserved command (R84). -/
theorem decodePort_cases (p : PortInput) :
    (isReservedCmd p.cmd = true ∧ decodePort p = .reservedCommand p.cmd) ∨
    (isReservedCmd p.cmd = false ∧ (decodePort p).wellFormed = true ∧ ∀ c, decodePort p ≠ .reservedCommand c) := by
  -- Arm 22 is the one for every CMD value outside the table of R82.
  have hlt := p.cmd.isLt
  rw [← Bool.not_eq_true, isReservedCmd_iff]
  unfold decodePort
  split
  case h_22 =>
    refine .inl ⟨?_, rfl⟩
    simp only [imp_false] at *
    omega
  all_goals exact .inr ⟨by omega, rfl, fun _ => Instr.noConfusion⟩

theorem decodePort_eq_reservedCommand_iff (p : PortInput) :
    decodePort p = .reservedCommand p.cmd ↔ isReservedCmd p.cmd = true := by
  rcases decodePort_cases p with ⟨hr, e⟩ | ⟨hr, -, hne⟩
  · exact iff_of_true e hr
  · exact iff_of_false (hne _) (ne_true_of_eq_false hr)

theorem decodePort_wellFormed (p : PortInput) : (decodePort p).wellFormed = true := by
  rcases decodePort_cases p with ⟨hr, e⟩ | ⟨-, hw, -⟩
  · rw [e]
    exact hr
  · exact hw

/-- The null and the record reference, as `REF[0]` carries it (R83). -/
@[simp] theorem recordRef_getElem_zero (r : Bool) : (recordRef r)[0] = r := by
  cases r <;> rfl

/-- The three references of INTERP_INIT, one bit of `REF` each (R83). -/
@[simp] theorem interpRef_getElem (r sr qr : Bool) :
    (interpRef r sr qr)[0] = r ∧ (interpRef r sr qr)[1] = sr ∧ (interpRef r sr qr)[2] = qr := by
  revert r sr qr
  decide

/-! ### The responses (R86, R87, R224 to R226) -/

/-- The kinds whose CODE is a parameter of the block (R226). -/
def hasInterpCode : Kind → Bool
  | .endOfProgram | .instructionNotFound | .stackOverflow | .stopped => true
  | _ => false

/-- The form of a response of the instruction `i` in the state `s`: OK with at most one value, a null pointer, the
instruction's own failure of R224, or a failure with the CODE that R226 gives its kind. -/
inductive RuledResponse (i : Instr) (s : State) : Response → Prop where
  | ok : RuledResponse i s okResponse
  | okByte (v : Byte) : RuledResponse i s (byteResponse v)
  | okAddr (a : Nat) (ha : WidthInv s → a < 2 ^ s.config.addrWidth) : RuledResponse i s (addrResponse a)
  | null : RuledResponse i s nullResponse
  | domain (k : Kind) (hk : domainFailure i = some k) : RuledResponse i s (failResponse k 2)
  | interp (k : Kind) (hi : failsByInterpCode i = true) (hk : hasInterpCode k = true) :
      RuledResponse i s (failResponse k (interpCode s.config.interpCode k))

/-- What an accessor returns is a register, or the capacity, which is no larger than one. -/
theorem accessorAddr_lt {i : Instr} {s : State} {a : Nat} (ha : accessorAddr s i = some a) (hs : WidthInv s) :
    a < 2 ^ s.config.addrWidth := by
  obtain ⟨⟨-, hbottom, hsentinel, htop⟩, ⟨hstart, hstop, hhead, htail, hlast⟩, -, -, hptr⟩ := widthInv_iff.1 hs
  cases i with
  | stackSize =>
    obtain rfl := Option.some.inj ha
    exact Nat.lt_of_le_of_lt (Nat.sub_le _ _) hsentinel
  | stackGetBottom | stackGetTop | stackGetTopSentinel | queueGetStart | queueGetEnd | queueGetHead | queueGetLastHead
  | queueGetTail | interpGetPtr =>
    obtain rfl := Option.some.inj ha
    assumption
  | _ => cases ha

theorem LbEffect.failure_hasInterpCode {imm8 : Option Byte} {s t : State} {k : Kind} (h : LbEffect imm8 s k t)
    (hk : k ≠ .ok) : hasInterpCode k = true := by
  cases h with
  | ends | overflows => rfl
  | pushes => exact absurd rfl hk

/-- An instruction answers no response, or one of the ruled form. -/
theorem Effect.response {i : Instr} {s t : State} (h : Effect i s t) :
    t.responses = s.responses ∨ ∃ r, RuledResponse i s r ∧ t.responses = r :: s.responses := by
  cases h with
  | runStarts | no => exact .inl rfl
  | lbOk h =>
    obtain ⟨-, -, -, hresp, -⟩ := h.frame
    exact .inl hresp
  | lbOverflows h =>
    obtain ⟨-, hconfig, -, hresp, -⟩ := h.frame
    exact .inr ⟨_, .interp .stackOverflow rfl rfl, by rw [endRun_responses, hconfig, hresp]⟩
  | lbEnds h | execLbOk _ _ h =>
    obtain ⟨-, -, -, hresp, -⟩ := h.frame
    exact .inr ⟨_, .ok, congrArg _ hresp⟩
  | execLbFails k hk _ _ h =>
    obtain ⟨-, -, -, hresp, -⟩ := h.frame
    exact .inr ⟨_, .interp k rfl (h.failure_hasInterpCode hk), congrArg _ hresp⟩
  | nullRef | nullArgument | nullUnit => exact .inr ⟨_, .null, rfl⟩
  | fails k _ hk => exact .inr ⟨_, .domain k hk, rfl⟩
  | readsAddr a ha => exact .inr ⟨_, .okAddr a (accessorAddr_lt ha), rfl⟩
  | readsState | stackPop | queueGet | fetches => exact .inr ⟨_, .okByte _, rfl⟩
  | isStopped _ hf => exact .inr ⟨_, .interp .stopped hf rfl, rfl⟩
  | fetchEnds => exact .inr ⟨_, .interp .endOfProgram rfl rfl, rfl⟩
  | execUndefined | undefined => exact .inr ⟨_, .interp .instructionNotFound rfl rfl, rfl⟩
  | stackInit | stackPush | queueInit | queuePut | interpInit | execNo | terminator => exact .inr ⟨_, .ok, rfl⟩

theorem exec_response {i : Instr} {s t : State} {r : Response} (h : exec i s = .next t)
    (hr : t.responses = r :: s.responses) : RuledResponse i s r := by
  rcases (exec_effect h).response with hsame | ⟨r', hr', hcons⟩
  · exact absurd (hsame.symm.trans hr) (List.cons_ne_self r _).symm
  · obtain rfl : r = r' := List.head_eq_of_cons_eq (hr.symm.trans hcons)
    exact hr'

/-- An instruction with a failure of its own has the fixed CODE of R224, and that failure is none of the kinds that
every instruction shares. -/
theorem domainFailure_some {i : Instr} {k : Kind} (h : domainFailure i = some k) :
    failsByInterpCode i = false ∧ k ≠ .ok ∧ k ≠ .nullPointer ∧ k ≠ .unknown := by
  cases i with
  | stackInit | stackPush | stackPop | queueInit | queuePut | queueGet | interpInit =>
    obtain rfl := Option.some.inj h
    exact ⟨rfl, by decide⟩
  | _ => cases h

/-- R226: the four codes lie in 2..255 and are different. -/
theorem InterpCode.wf_iff {c : InterpCode} :
    c.wf = true ↔
      (2 ≤ c.endOfProgram.toNat ∧ 2 ≤ c.instructionNotFound.toNat ∧ 2 ≤ c.stackOverflow.toNat ∧
        2 ≤ c.stopped.toNat) ∧
      (c.endOfProgram ≠ c.instructionNotFound ∧ c.endOfProgram ≠ c.stackOverflow ∧ c.endOfProgram ≠ c.stopped) ∧
      (c.instructionNotFound ≠ c.stackOverflow ∧ c.instructionNotFound ≠ c.stopped) ∧ c.stackOverflow ≠ c.stopped := by
  simp [InterpCode.wf, and_assoc]

section
variable {c : InterpCode} {i : Instr} {code : Byte} {k : Kind}

@[simp] theorem hostKind_zero : hostKind c i 0#8 = .ok := rfl

@[simp] theorem hostKind_one : hostKind c i 1#8 = .nullPointer := rfl

theorem hostKind_domainFailure (hk : domainFailure i = some k) : hostKind c i 2#8 = k := by
  obtain ⟨hi, -⟩ := domainFailure_some hk
  simp [hostKind, hi, hk]

theorem code_ne_of_two_le (h : 2 ≤ code.toNat) : code ≠ 0#8 ∧ code ≠ 1#8 := by
  bv_omega

/-- The four codes are different, so each decodes to its own kind. -/
theorem hostKind_interpCode (hc : c.wf = true) (hi : failsByInterpCode i = true) (hk : hasInterpCode k = true) :
    hostKind c i (interpCode c k) = k := by
  obtain ⟨⟨he, hn, ho, hs⟩, ⟨hen, heo, hes⟩, ⟨hno, hns⟩, hos⟩ := InterpCode.wf_iff.1 hc
  cases k with
  | endOfProgram => simp [interpCode, hostKind, code_ne_of_two_le he, hi]
  | instructionNotFound => simp [interpCode, hostKind, code_ne_of_two_le hn, hi, hen.symm]
  | stackOverflow => simp [interpCode, hostKind, code_ne_of_two_le ho, hi, heo.symm, hno.symm]
  | stopped => simp [interpCode, hostKind, code_ne_of_two_le hs, hi, hes.symm, hns.symm, hos.symm]
  | _ => cases hk

/-- Beyond 0 and 1 no CODE decodes to OK or to a null pointer: it stands for a failure of the instruction's own. -/
theorem hostKind_ne (h0 : code ≠ 0#8) (h1 : code ≠ 1#8) :
    hostKind c i code ≠ .ok ∧ hostKind c i code ≠ .nullPointer := by
  rw [hostKind, if_neg h0, if_neg h1]
  split
  · repeat' split
    all_goals exact ⟨Kind.noConfusion, Kind.noConfusion⟩
  · split
    · cases hk : domainFailure i with
      | none => exact ⟨Kind.noConfusion, Kind.noConfusion⟩
      | some k =>
        obtain ⟨-, hok, hnull, -⟩ := domainFailure_some hk
        exact ⟨hok, hnull⟩
    · exact ⟨Kind.noConfusion, Kind.noConfusion⟩

theorem hostKind_eq_ok_iff : hostKind c i code = .ok ↔ code = 0#8 := by
  by_cases h0 : code = 0#8
  · subst h0
    exact iff_of_true hostKind_zero rfl
  refine iff_of_false ?_ h0
  by_cases h1 : code = 1#8
  · subst h1
    exact Kind.noConfusion
  · exact (hostKind_ne h0 h1).1

theorem hostKind_eq_nullPointer_iff : hostKind c i code = .nullPointer ↔ code = 1#8 := by
  by_cases h1 : code = 1#8
  · subst h1
    exact iff_of_true hostKind_one rfl
  refine iff_of_false ?_ h1
  by_cases h0 : code = 0#8
  · subst h0
    exact Kind.noConfusion
  · exact (hostKind_ne h0 h1).2

end

section
variable {i : Instr} {s : State} {r : Response}

theorem RuledResponse.hostKind_eq (h : RuledResponse i s r) (hc : s.config.interpCode.wf = true) :
    hostKind s.config.interpCode i r.code = r.kind := by
  cases h with
  | ok | okByte | okAddr => exact hostKind_zero
  | null => exact hostKind_one
  | domain k hk => exact hostKind_domainFailure hk
  | interp k hi hk => exact hostKind_interpCode hc hi hk

theorem RuledResponse.kind_ne_unknown (h : RuledResponse i s r) : r.kind ≠ .unknown := by
  cases h with
  | ok | okByte | okAddr | null => exact Kind.noConfusion
  | domain k hk =>
    obtain ⟨-, -, -, hunknown⟩ := domainFailure_some hk
    exact hunknown
  | interp k hi hk =>
    rintro rfl
    cases hk

theorem RuledResponse.values (h : RuledResponse i s r) :
    (r.kind ≠ .ok → r.rdata = none ∧ r.raddr = none) ∧ (r.rdata = none ∨ r.raddr = none) ∧
    (WidthInv s → ∀ a, r.raddr = some a → a < 2 ^ s.config.addrWidth) := by
  cases h with
  | ok | null | domain | interp => exact ⟨fun _ => ⟨rfl, rfl⟩, .inl rfl, fun _ _ ha => nomatch ha⟩
  | okByte v => exact ⟨fun hk => absurd rfl hk, .inr rfl, fun _ _ ha => nomatch ha⟩
  | okAddr a ha =>
    exact ⟨fun hk => absurd rfl hk, .inl rfl, fun hs b hb => Option.some.inj hb ▸ ha hs⟩

end

/-! ### The obligations -/

/-- Settles O1: a byte or a CMD value selects the constructor it was encoded from, and `REF` gives the references
back. -/
theorem decodeOfEncodeIsTheInstruction : Obligations.DecodeOfEncodeIsTheInstruction := by
  intro i hi
  cases i with
  | terminator => exact decode_bytes_of_decodeIL (decodeIL_terminator _)
  | no => exact decode_bytes_of_decodeIL (decodeIL_no _)
  | lb imm8 =>
    cases imm8 with
    | none => exact decode_bytes_of_decodeIL (decodeIL_lb [])
    | some v => exact decode_bytes_of_decodeIL (decodeIL_lb [v])
  | undefined op => exact decode_bytes_of_decodeIL (decodeIL_undefined [] hi)
  | reservedCommand cmd => exact congrArg Except.ok ((decodePort_eq_reservedCommand_iff _).2 hi)
  -- A command of R82: its CMD value is a literal, which selects one arm of `decodePort`.
  | _ => simp [encode, portWord, decode, decodePort, PortInput.refBit]

/-- Settles O2: byte code by its first byte, the port by the cases of its CMD value. -/
theorem decodingIsTotalAndWellFormed : Obligations.DecodingIsTotalAndWellFormed := by
  refine ⟨fun p => ⟨_, rfl⟩, fun l => ?bytes, fun e i h => ?wellFormed, decodeCommand_fits, fun aw p h => ?narrow⟩
  case bytes =>
    cases l with
    | nil => exact iff_of_false (fun ⟨_, h⟩ => nomatch h) (fun h => h rfl)
    | cons op rest =>
      obtain ⟨i, h, -⟩ := decode_bytes_cons_wellFormed op rest
      exact iff_of_true ⟨i, h⟩ (List.cons_ne_nil op rest)
  case wellFormed =>
    match e with
    | .port p =>
      obtain rfl := Except.ok.inj h
      exact decodePort_wellFormed p
    | .bytes [] => cases h
    | .bytes (op :: rest) =>
      obtain ⟨j, hj, hw⟩ := decode_bytes_cons_wellFormed op rest
      obtain rfl := Except.ok.inj (hj.symm.trans h)
      exact hw
  case narrow =>
    rw [decodeCommand, PortInput.narrow_of_fits h]
    rfl

/-- Settles O5: once the CMD value is known, each input of its instruction is one on which the two agree. -/
theorem unusedPortInputsAreIgnored : Obligations.UnusedPortInputsAreIgnored := by
  rintro ⟨cmd, ref, a0, a1, a2, d⟩ ⟨cmd', ref', a0', a1', a2', d'⟩ hcmd href hrefs haddr ha2 hd
  obtain rfl : cmd = cmd' := hcmd
  simp only [decodePort, PortInput.refBit]
  split
  case h_22 => rfl
  all_goals
    rename_i h
    have hcmd := BitVec.toNat_eq_nat.1 h
    simp_all

/-- Settles O47: CODE decodes to the kind, so 0 and 1 stand for OK and for a null pointer alone. -/
theorem responsesAreOfTheRuledForm : Obligations.ResponsesAreOfTheRuledForm := by
  intro i s t r hc hexec hr
  have h := exec_response hexec hr
  have hhost := h.hostKind_eq hc
  exact ⟨h.kind_ne_unknown, hhost ▸ hostKind_eq_ok_iff, hhost ▸ hostKind_eq_nullPointer_iff, hhost, h.values⟩

/-- Settles O3, by evaluation of the decoder. -/
theorem specExampleWordsDecode : Obligations.SpecExampleWordsDecode :=
  ⟨rfl, rfl, rfl, rfl, rfl, rfl, rfl, rfl, rfl⟩

/-- Settles O4: the equations of the byte code. -/
theorem firstByteSelectsInstructionAndLength : Obligations.FirstByteSelectsInstructionAndLength := by
  intro op rest
  refine ⟨?_, ?_, ?_, fun h0 h8 h9 => decodeIL_undefined rest (isUndefinedOpcode_iff.2 ⟨h0, h8, h9⟩)⟩
  · rintro rfl
    exact decodeIL_terminator rest
  · rintro rfl
    exact decodeIL_no rest
  · rintro rfl
    refine ⟨?_, ?_⟩
    · rintro v tl rfl
      exact decodeIL_lb (v :: tl)
    · rintro rfl
      exact decodeIL_lb []

/-- Settles O6: the fields of CMD by arithmetic, and the refusal. -/
theorem reservedCommandsAreRefused : Obligations.ReservedCommandsAreRefused :=
  fun p _ => ⟨(isReservedCmd_iff p.cmd).symm.trans (decodePort_eq_reservedCommand_iff p).symm, rfl⟩

/-- Settles O7, by evaluation of the encodings. -/
theorem kindAndStateEncodings : Obligations.KindAndStateEncodings :=
  ⟨rfl, rfl, rfl, rfl⟩

/-- Settles O11: the step of a command; a transaction of `AW`-bit addresses is its own narrowing. -/
theorem stepRunsTheNextCommand : Obligations.StepRunsTheNextCommand := by
  intro s p rest hr hp
  have hstep := step_of_command hr hp
  refine ⟨hstep, fun hfits => ?_⟩
  rw [hstep, decodeCommand, PortInput.narrow_of_fits hfits]

end Sys2Proof.Machine

/-! ## What a failing instruction leaves (60_exceptions.md R228) -/

namespace Sys2Proof.Machine

section
variable {i : Instr} {s t : State} {r : Response}

/-- An instruction that gives a failing response leaves all but the response; or it is a fetch, exec or IL instruction,
and leaves STACK, QUEUE and MEM. -/
theorem Effect.failure_frame (h : Effect i s t) (hr : t.responses = r :: s.responses) (hk : r.kind ≠ .ok) :
    t = respond r s ∨
    ((t.stack = s.stack ∧ t.queue = s.queue ∧ t.mem = s.mem) ∧
      ((∃ b, i = .interpGetNextBytecode b) ∨ (∃ b op, i = .interpExec b op) ∨ isIl i = true)) := by
  cases h with
  | nullRef | nullArgument | nullUnit | fails | isStopped =>
    obtain rfl := List.head_eq_of_cons_eq hr
    exact .inl rfl
  | fetchEnds => exact .inr ⟨⟨rfl, rfl, rfl⟩, .inl ⟨_, rfl⟩⟩
  | execUndefined => exact .inr ⟨⟨rfl, rfl, rfl⟩, .inr (.inl ⟨_, _, rfl⟩)⟩
  | undefined => exact .inr ⟨⟨rfl, rfl, rfl⟩, .inr (.inr rfl)⟩
  | execLbFails k hok _ _ h =>
    obtain ⟨hqueue, -, -, -, -, -, -, hframe⟩ := h.frame
    obtain ⟨hmem, hstack⟩ := hframe hok
    exact .inr ⟨⟨hstack, hqueue, hmem⟩, .inr (.inl ⟨_, _, rfl⟩)⟩
  | lbOverflows h =>
    obtain ⟨hqueue, -, -, -, -, -, -, hframe⟩ := h.frame
    obtain ⟨hmem, hstack⟩ := hframe Kind.noConfusion
    exact .inr ⟨⟨hstack, hqueue, hmem⟩, .inr (.inr rfl)⟩
  | runStarts | no => exact absurd hr.symm (List.cons_ne_self r _)
  | lbOk h =>
    obtain ⟨-, -, -, hresp, -⟩ := h.frame
    exact absurd (hresp.symm.trans hr).symm (List.cons_ne_self r _)
  | readsAddr | readsState | stackInit | stackPush | stackPop | queueInit | queuePut | queueGet | interpInit | fetches
  | execNo | execLbOk | terminator | lbEnds =>
    obtain rfl := List.head_eq_of_cons_eq hr
    exact absurd rfl hk

end

/-- Settles O37: the two forms of a failing effect; the excepted instructions are those of the second. -/
theorem failuresKeepUnitsAndMemory : Obligations.FailuresKeepUnitsAndMemory := by
  intro i s t r hexec hr hk
  rcases (exec_effect hexec).failure_frame hr hk with rfl | ⟨⟨hstack, hqueue, hmem⟩, hi⟩
  · exact ⟨rfl, rfl, rfl, fun _ _ _ => rfl⟩
  · refine ⟨hstack, hqueue, hmem, fun hfetch hop hil => ?_⟩
    rcases hi with ⟨b, hi⟩ | ⟨b, op, hi⟩ | hi
    · exact absurd hi (hfetch b)
    · exact absurd hi (hop b op)
    · exact absurd hi (ne_true_of_eq_false hil)

end Sys2Proof.Machine

/-! ## The STACK commands (40_stack.md R100 to R121) -/

namespace Sys2Proof.Machine

/-- The CMD value can be put in its place, where it selects the arm of `decodePort` by evaluation (R82). -/
theorem decodePort_of_cmd {p : PortInput} {cmd : BitVec 8} (h : p.cmd = cmd) :
    decodePort p = decodePort { p with cmd := cmd } := by
  rw [← h]

section
variable {s : State} {a0 a1 a2 : Nat}

theorem exec_stackInit_null {record : Bool} (h : record = false ∨ a0 = 0 ∨ a1 = 0 ∨ a2 = 0) :
    exec (.stackInit record a0 a1 a2) s = .next (respond nullResponse s) :=
  if_pos (by simpa only [isNull, decide_eq_true_eq] using h)

/-- STACK_INIT past its null tests (R101). -/
theorem exec_stackInit_nonnull (h0 : a0 ≠ 0) (h1 : a1 ≠ 0) (h2 : a2 ≠ 0) :
    exec (.stackInit true a0 a1 a2) s =
      if a1 ≤ a2 then raiseUnit .invalidArguments s
      else returnOk { s with stack := { data := a0, bottom := a2, topSentinel := a1, top := a2, valid := true } } :=
  if_neg (by simp [isNull, h0, h1, h2])

end

/-- Settles O15: the null tests, then the test of the bounds. -/
theorem stackInitBindsItsRegion : Obligations.StackInitBindsItsRegion := by
  refine ⟨fun _ => decodePort_of_cmd, fun s record a0 a1 a2 => ⟨exec_stackInit_null, ?_, ?_⟩⟩
  · rintro rfl h0 h1 h2 hle
    exact (exec_stackInit_nonnull h0 h1 h2).trans (if_pos hle)
  · rintro rfl h0 h1 h2 hlt
    exact (exec_stackInit_nonnull h0 h1 h2).trans (if_neg (Nat.not_le_of_lt hlt))

/-- Settles O16: the checks of a STACK command, then the push on a full STACK and on one with room. -/
theorem stackPushStoresAtTop : Obligations.StackPushStoresAtTop :=
  ⟨fun _ => decodePort_of_cmd, fun _ v => ⟨rfl, stackCommand_invalid _,
    fun hv ht => (exec_stackPush_valid v hv).trans (stackPushBody_full v ht),
    fun hv ht => (exec_stackPush_valid v hv).trans (stackPushBody_room v ht)⟩⟩

/-- Settles O17: the checks of a STACK command, then the pop of an empty STACK and of one with a byte. -/
theorem stackPopReturnsTheTopByte : Obligations.StackPopReturnsTheTopByte :=
  ⟨fun _ => decodePort_of_cmd, fun _ => ⟨rfl, stackCommand_invalid _,
    fun hv ht => (exec_stackPop_valid hv).trans (stackPopBody_empty ht),
    fun hv ht => (exec_stackPop_valid hv).trans (stackPopBody_nonempty ht)⟩⟩

/-- Settles O18: each command is the checks of a STACK command around the return of an address; R23 bounds the
capacity. -/
theorem stackSizeAndAccessorsReturnRegisters : Obligations.StackSizeAndAccessorsReturnRegisters := by
  refine ⟨fun p => ⟨decodePort_of_cmd, decodePort_of_cmd, decodePort_of_cmd, decodePort_of_cmd⟩,
    fun s => ⟨?null, fun hv => ?invalid, fun hv => ⟨stackCommand_valid _ hv, fun hinv => ?capacity,
      stackCommand_valid _ hv, stackCommand_valid _ hv, stackCommand_valid _ hv⟩⟩⟩
  case null =>
    simp only [List.forall_mem_cons]
    exact ⟨rfl, rfl, rfl, rfl, List.forall_mem_nil _⟩
  case invalid =>
    simp only [List.forall_mem_cons]
    exact ⟨stackCommand_invalid _ hv, stackCommand_invalid _ hv, stackCommand_invalid _ hv, stackCommand_invalid _ hv,
      List.forall_mem_nil _⟩
  case capacity => exact Nat.sub_pos_of_lt (hinv.bottom_lt_topSentinel hv)

end Sys2Proof.Machine

/-! ## Sequences of pushes and pops (40_stack.md R106, R111) -/

namespace Sys2Proof.Machine

/-! ### The steps of a plain command, of STACK_PUSH and of STACK_POP -/

section
variable {s : State} {rest : List HostInput}

/-- A command without address arguments is taken as it stands (R80). -/
theorem step_of_plainCommand {cmd : BitVec 8} {d : Byte} (hr : s.runActive = false)
    (hp : s.pending = plainCommand cmd d :: rest) :
    step s = exec (decodePort { cmd, ref := 1, a0 := 0, a1 := 0, a2 := 0, d }) { s with pending := rest } := by
  obtain ⟨-, hfits⟩ := stepRunsTheNextCommand s _ rest hr hp
  exact hfits (by simp only [PortInput.fits, Nat.two_pow_pos, decide_true, Bool.and_self])

theorem step_of_pushInput {v : Byte} (hr : s.runActive = false) (hp : s.pending = pushInput v :: rest) :
    step s = exec (.stackPush true v) { s with pending := rest } := by
  rw [step_of_plainCommand hr hp]
  simp [decodePort, PortInput.refBit]

theorem step_of_popInput (hr : s.runActive = false) (hp : s.pending = popInput :: rest) :
    step s = exec (.stackPop true) { s with pending := rest } := by
  rw [step_of_plainCommand hr hp]
  simp [decodePort, PortInput.refBit]

end

/-! ### What the STACK holds between two commands -/

theorem bottom_add_stackContents_length {s : State} (h : Inv s) (hv : s.stack.valid = true) :
    s.stack.bottom + (stackContents s).length = s.stack.top := by
  obtain ⟨-, -, hbottom, -⟩ := h.stack hv
  rw [stackContents_length, Nat.add_sub_cancel' hbottom]

/-- Between two commands the STACK, bound to the region of `r`, holds the bytes `l`; `responses` have been given and
`pending` is still to come. -/
structure StackHolds (r : StackRegs) (l : List Byte) (responses : List Response) (pending : List HostInput)
    (s : State) : Prop where
  inv : Inv s
  idle : s.runActive = false
  valid : r.valid = true
  stack : s.stack = { r with top := r.bottom + l.length }
  contents : stackContents s = l
  responses : s.responses = responses
  pending : s.pending = pending

/-- The STACK holds what its registers and MEM say. -/
theorem StackHolds.of_inv {s : State} (h : Inv s) (hr : s.runActive = false) (hv : s.stack.valid = true) :
    StackHolds s.stack (stackContents s) s.responses s.pending s where
  inv := h
  idle := hr
  valid := hv
  stack := by rw [bottom_add_stackContents_length h hv]
  contents := rfl
  responses := rfl
  pending := rfl

section
variable {r : StackRegs} {l vs : List Byte} {v : Byte} {rs : List Response} {rest : List HostInput} {s : State}

/-- Where the list reaches up to the top of `r`, the registers are those of `r`. -/
theorem StackHolds.stack_eq (h : StackHolds r l rs rest s) (hl : r.bottom + l.length = r.top) : s.stack = r := by
  rw [h.stack, hl]

theorem StackHolds.step_push (h : StackHolds r l rs (pushInput v :: rest) s) :
    step s = stackPushBody v { s with pending := rest } :=
  (step_of_pushInput h.idle h.pending).trans (exec_stackPush_valid v (by rw [h.stack]; exact h.valid))

theorem StackHolds.step_pop (h : StackHolds r l rs (popInput :: rest) s) :
    step s = stackPopBody { s with pending := rest } :=
  (step_of_popInput h.idle h.pending).trans (exec_stackPop_valid (by rw [h.stack]; exact h.valid))

/-- A command that fails leaves the STACK as it is. -/
theorem StackHolds.fails {k : Kind} {x : HostInput} (h : StackHolds r l rs (x :: rest) s)
    (hstep : step s = .next (respond (failResponse k 2) { s with pending := rest })) :
    ∃ t, step s = .next t ∧ StackHolds r l (failResponse k 2 :: rs) rest t :=
  ⟨_, hstep,
    { inv := everyStepKeepsTheInvariant s _ h.inv hstep
      idle := h.idle
      valid := h.valid
      stack := h.stack
      contents := h.contents
      responses := congrArg _ h.responses
      pending := rfl }⟩

theorem StackHolds.push_full (h : StackHolds r l rs (pushInput v :: rest) s)
    (hfull : r.bottom + l.length = r.topSentinel) :
    ∃ t, step s = .next t ∧ StackHolds r l (failResponse .stackOverflow 2 :: rs) rest t :=
  h.fails (h.step_push.trans (stackPushBody_full v (by rw [h.stack]; exact hfull)))

theorem StackHolds.pop_empty (h : StackHolds r [] rs (popInput :: rest) s) :
    ∃ t, step s = .next t ∧ StackHolds r [] (failResponse .stackUnderflow 2 :: rs) rest t :=
  h.fails (h.step_pop.trans (stackPopBody_empty (by rw [h.stack]; rfl)))

theorem StackHolds.push (h : StackHolds r l rs (pushInput v :: rest) s)
    (hroom : r.bottom + l.length < r.topSentinel) :
    ∃ t, step s = .next t ∧ StackHolds r (l ++ [v]) (okResponse :: rs) rest t := by
  have htop : s.stack.top = r.bottom + l.length := by rw [h.stack]
  have hstep := h.step_push.trans (stackPushBody_room v (by rw [h.stack]; exact Nat.ne_of_lt hroom))
  exact ⟨_, hstep,
    { inv := everyStepKeepsTheInvariant s _ h.inv hstep
      idle := h.idle
      valid := h.valid
      stack := by simp [h.stack, Nat.add_assoc]
      contents := by
        have hbottom : s.stack.bottom ≤ s.stack.top := by simp [h.stack]
        rw [← h.contents]
        exact stackContents_push (s := { s with pending := rest }) v h.inv.mem hbottom
      responses := congrArg _ h.responses
      pending := rfl }⟩

theorem StackHolds.pop (h : StackHolds r (l ++ [v]) rs (popInput :: rest) s) :
    ∃ t, step s = .next t ∧ StackHolds r l (byteResponse v :: rs) rest t := by
  have hnonempty : s.stack.bottom < s.stack.top := by simp [h.stack]
  have hstack : { s.stack with top := s.stack.top - 1 } = { r with top := r.bottom + l.length } := by simp [h.stack]
  have hstep := h.step_pop.trans (stackPopBody_nonempty (Nat.ne_of_gt hnonempty))
  have hcontents := (stackContents_eq_concat hnonempty).symm.trans h.contents
  obtain ⟨hrest, hlast⟩ := List.append_inj' hcontents rfl
  obtain rfl := List.singleton_inj.1 hlast
  exact ⟨_, hstep,
    { inv := everyStepKeepsTheInvariant s _ h.inv hstep
      idle := h.idle
      valid := h.valid
      stack := hstack
      contents := hrest
      responses := congrArg _ h.responses
      pending := rfl }⟩

/-! ### Runs of pushes and of pops -/

theorem StackHolds.pushes (h : StackHolds r l rs (vs.map pushInput ++ rest) s)
    (hroom : r.bottom + l.length + vs.length ≤ r.topSentinel) :
    ∃ t, runSteps vs.length s = .next t ∧
      StackHolds r (l ++ vs) (List.replicate vs.length okResponse ++ rs) rest t := by
  induction vs generalizing l rs s with
  | nil => exact ⟨s, runSteps_zero s, by simpa using h⟩
  | cons v vs ih =>
    rw [List.length_cons] at hroom
    obtain ⟨u, hstep, hu⟩ := h.push (by omega)
    obtain ⟨t, hrun, ht⟩ := ih hu (by rw [List.length_append, List.length_singleton]; omega)
    refine ⟨t, (runSteps_next _ hstep).trans hrun, ?_⟩
    simpa [List.replicate_succ'] using ht

/-- The first of the bytes lies below the others, which are popped before it. -/
theorem StackHolds.pops (h : StackHolds r (l ++ vs) rs (List.replicate vs.length popInput ++ rest) s) :
    ∃ t, runSteps vs.length s = .next t ∧ StackHolds r l (vs.map byteResponse ++ rs) rest t := by
  induction vs generalizing l rest with
  | nil =>
    rw [List.append_nil] at h
    exact ⟨s, runSteps_zero s, h⟩
  | cons v vs ih =>
    rw [List.append_cons, List.length_cons, List.replicate_succ', List.append_assoc _ [popInput]] at h
    obtain ⟨u, hrun, hu⟩ := ih h
    obtain ⟨t, hstep, ht⟩ := hu.pop
    exact ⟨t, (runSteps_add 1 hrun).trans ((runSteps_one u).trans hstep), ht⟩

end

/-! ### The obligations -/

/-- Settles O56: the pushes fill the STACK, and the next finds it full. -/
theorem newStackAcceptsExactlyItsCapacity : Obligations.NewStackAcceptsExactlyItsCapacity := by
  intro s vs v rest hs hr hv hempty hlen hpending
  have hcap := hs.stack.bottom_lt_topSentinel hv
  have hcontents : (stackContents s).length = 0 := by rw [stackContents_length, hempty, Nat.sub_self]
  have h := StackHolds.of_inv hs hr hv
  rw [hpending] at h
  obtain ⟨u, hrun, hu⟩ := h.pushes (by omega)
  obtain ⟨t, hstep, ht⟩ := hu.push_full (by rw [List.length_append]; omega)
  exact ⟨t, (runSteps_add 1 hrun).trans ((runSteps_one u).trans hstep), ht.responses, ht.pending⟩

/-- Settles O57: the pushes extend the list that the STACK holds, and the pops take it back to what it was. -/
theorem popsReturnPushesInReverse : Obligations.PopsReturnPushesInReverse := by
  intro s vs rest hs hr hv hroom hpending
  have hlen := bottom_add_stackContents_length hs hv
  have h := StackHolds.of_inv hs hr hv
  rw [hpending, List.append_assoc] at h
  obtain ⟨u, hpushes, hu⟩ := h.pushes (by omega)
  obtain ⟨t, hpops, ht⟩ := hu.pops
  refine ⟨t, ?_, by rw [ht.responses, List.append_assoc], ht.stack_eq hlen, ht.pending, ?_⟩
  · rw [Nat.two_mul, runSteps_add _ hpushes, hpops]
  · rintro hempty tl rfl
    have hnil : stackContents s = [] := List.eq_nil_of_length_eq_zero (by omega)
    rw [hnil] at ht
    obtain ⟨w, hstep, hw⟩ := ht.pop_empty
    exact ⟨w, hstep, by rw [hw.responses, ht.responses], hw.stack_eq hempty.symm⟩

end Sys2Proof.Machine

/-! ## The QUEUE commands (41_queue.md R130 to R154) -/

namespace Sys2Proof.Machine

/-- The default rule (R146), `Q.end` at a wrap and no change else. -/
theorem lastHeadAfter_endOnWrap {c : Config} (h : c.lastHeadRule = .endOnWrap) (op : QueueOp) (q : QueueRegs)
    (wrapped : Prop) [Decidable wrapped] :
    lastHeadAfter c op (decide wrapped) q = if wrapped then q.stop else q.lastHead := by
  simp only [lastHeadAfter, h, decide_eq_true_eq]

/-- Settles O19: the null test, then the test of the bounds. -/
theorem queueInitBindsItsRegion : Obligations.QueueInitBindsItsRegion :=
  ⟨fun _ => decodePort_of_cmd, fun _ _ _ => ⟨rfl, fun hlt => if_pos hlt, fun hle => if_neg (Nat.not_lt_of_le hle)⟩⟩

/-- Settles O20: the checks of a QUEUE command, then the put into a full QUEUE and into one with room. -/
theorem queuePutAppendsAtTail : Obligations.QueuePutAppendsAtTail :=
  ⟨fun _ => decodePort_of_cmd, fun s v => ⟨fun hrule => lastHeadAfter_endOnWrap hrule .put s.queue _, rfl,
    queueCommand_invalid _,
    fun hv hfull => (exec_queuePut_valid v hv).trans (queuePutBody_full v hfull),
    fun hv hroom => (exec_queuePut_valid v hv).trans (queuePutBody_room v hroom)⟩⟩

/-- Settles O21: the checks of a QUEUE command, then the get from an empty QUEUE and from one with a byte. -/
theorem queueGetTakesFromHead : Obligations.QueueGetTakesFromHead :=
  ⟨fun _ => decodePort_of_cmd, fun s => ⟨fun hrule => lastHeadAfter_endOnWrap hrule .get s.queue _, rfl,
    queueCommand_invalid _,
    fun hv hempty => (exec_queueGet_valid hv).trans (queueGetBody_empty hempty),
    fun hv hne => (exec_queueGet_valid hv).trans (queueGetBody_nonempty hne)⟩⟩

/-- Settles O22: each accessor is the checks of a QUEUE command around the return of a register. -/
theorem queueAccessorsReturnRegisters : Obligations.QueueAccessorsReturnRegisters := by
  refine ⟨fun p => ⟨decodePort_of_cmd, decodePort_of_cmd, decodePort_of_cmd, decodePort_of_cmd, decodePort_of_cmd⟩,
    fun s => ⟨?null, fun hv => ?invalid, fun hv => ⟨queueCommand_valid _ hv, queueCommand_valid _ hv,
      queueCommand_valid _ hv, queueCommand_valid _ hv, queueCommand_valid _ hv⟩⟩⟩
  case null =>
    simp only [List.forall_mem_cons]
    exact ⟨rfl, rfl, rfl, rfl, rfl, List.forall_mem_nil _⟩
  case invalid =>
    simp only [List.forall_mem_cons]
    exact ⟨queueCommand_invalid _ hv, queueCommand_invalid _ hv, queueCommand_invalid _ hv, queueCommand_invalid _ hv,
      queueCommand_invalid _ hv, List.forall_mem_nil _⟩

end Sys2Proof.Machine

/-! ## Sequences of puts and gets (41_queue.md R136, R141, R142) -/

namespace Sys2Proof.Machine

/-! ### The steps of QUEUE_PUT and QUEUE_GET -/

section
variable {s : State} {rest : List HostInput}

theorem step_of_putInput {v : Byte} (hr : s.runActive = false) (hp : s.pending = putInput v :: rest) :
    step s = exec (.queuePut true v) { s with pending := rest } := by
  rw [step_of_plainCommand hr hp]
  simp [decodePort, PortInput.refBit]

theorem step_of_getInput (hr : s.runActive = false) (hp : s.pending = getInput :: rest) :
    step s = exec (.queueGet true) { s with pending := rest } := by
  rw [step_of_plainCommand hr hp]
  simp [decodePort, PortInput.refBit]

end

/-! ### What the QUEUE holds between two commands -/

/-- Between two commands the QUEUE, of a region of `len` bytes and with its cursors anywhere, holds the bytes `l`,
oldest first; `responses` have been given and `pending` is still to come. -/
structure QueueHolds (len : Nat) (l : List Byte) (responses : List Response) (pending : List HostInput)
    (s : State) : Prop where
  inv : Inv s
  idle : s.runActive = false
  valid : s.queue.valid = true
  length : queueLength s.queue = len
  contents : queueContents s = l
  responses : s.responses = responses
  pending : s.pending = pending

/-- The QUEUE holds nothing exactly where its cursors meet (R29). -/
theorem queueContents_eq_nil_iff {s : State} (h : Inv s) (hv : s.queue.valid = true) :
    queueContents s = [] ↔ s.queue.head = s.queue.tail := by
  obtain ⟨-, hhead, htail⟩ := h.queue hv
  rw [← List.length_eq_zero_iff, queueContents_length, queueCount_eq_zero_iff hhead htail]

section
variable {len : Nat} {l vs : List Byte} {v : Byte} {rs : List Response} {rest : List HostInput} {s : State}

/-- A valid QUEUE whose cursors meet holds nothing. -/
theorem QueueHolds.of_empty (h : Inv s) (hr : s.runActive = false) (hv : s.queue.valid = true)
    (hempty : s.queue.head = s.queue.tail) : QueueHolds (queueLength s.queue) [] s.responses s.pending s where
  inv := h
  idle := hr
  valid := hv
  length := rfl
  contents := (queueContents_eq_nil_iff h hv).2 hempty
  responses := rfl
  pending := rfl

/-- A QUEUE command that binds no region takes one input and keeps the region; what it answers and which bytes it leaves
is left to the command. -/
theorem QueueHolds.answers {x : HostInput} {i : Instr} {r : Response} {l' : List Byte} {t : State}
    (h : QueueHolds len l rs (x :: rest) s) (hstep : step s = exec i { s with pending := rest })
    (hi : isQueueCommand i = true ∧ ∀ b a0 a1, i ≠ .queueInit b a0 a1)
    (hexec : exec i { s with pending := rest } = .next t) (hresp : t.responses = r :: s.responses)
    (hcontents : queueContents t = l') : step s = .next t ∧ QueueHolds len l' (r :: rs) rest t := by
  have hnext := hstep.trans hexec
  have heffect := exec_effect hexec
  obtain ⟨hstart, hstop, hvalid⟩ := heffect.queueChange.region_eq hi.2
  exact ⟨hnext,
    { inv := everyStepKeepsTheInvariant s t h.inv hnext
      idle := (heffect.runActive_eq (.inr hi.1)).trans h.idle
      valid := hvalid.trans h.valid
      length := by rw [← h.length, queueLength, queueLength, hstart, hstop]
      contents := hcontents
      responses := hresp.trans (congrArg _ h.responses)
      pending := heffect.config_pending_eq.2 }⟩

theorem QueueHolds.put_full (h : QueueHolds len l rs (putInput v :: rest) s) (hfull : l.length = len - 1) :
    ∃ t, step s = .next t ∧ QueueHolds len l (failResponse .queueFull 2 :: rs) rest t := by
  obtain ⟨-, hput, -⟩ := queueRefinesABoundedFifo _ (h.inv.withPending rest) h.valid
  have hexec := (hput v).1 (by rw [h.length]; exact h.contents ▸ hfull)
  exact ⟨_, h.answers (step_of_putInput h.idle h.pending) ⟨rfl, nofun⟩ hexec rfl h.contents⟩

theorem QueueHolds.put (h : QueueHolds len l rs (putInput v :: rest) s) (hroom : l.length < len - 1) :
    ∃ t, step s = .next t ∧ QueueHolds len (l ++ [v]) (okResponse :: rs) rest t := by
  obtain ⟨-, hput, -⟩ := queueRefinesABoundedFifo _ (h.inv.withPending rest) h.valid
  obtain ⟨t, hexec, hresp, hcontents⟩ := (hput v).2 (by rw [h.length]; exact h.contents ▸ hroom)
  exact ⟨t, h.answers (step_of_putInput h.idle h.pending) ⟨rfl, nofun⟩ hexec hresp
    (hcontents.trans (congrArg (· ++ [v]) h.contents))⟩

theorem QueueHolds.get_empty (h : QueueHolds len [] rs (getInput :: rest) s) :
    ∃ t, step s = .next t ∧ QueueHolds len [] (failResponse .queueEmpty 2 :: rs) rest t := by
  obtain ⟨-, -, hempty, -⟩ := queueRefinesABoundedFifo _ (h.inv.withPending rest) h.valid
  exact ⟨_, h.answers (step_of_getInput h.idle h.pending) ⟨rfl, nofun⟩ (hempty h.contents) rfl h.contents⟩

theorem QueueHolds.get (h : QueueHolds len (v :: l) rs (getInput :: rest) s) :
    ∃ t, step s = .next t ∧ QueueHolds len l (byteResponse v :: rs) rest t := by
  obtain ⟨-, -, -, hget⟩ := queueRefinesABoundedFifo _ (h.inv.withPending rest) h.valid
  obtain ⟨t, hexec, hresp, hcontents⟩ := hget v l h.contents
  exact ⟨t, h.answers (step_of_getInput h.idle h.pending) ⟨rfl, nofun⟩ hexec hresp hcontents⟩

/-! ### Runs of puts and of gets -/

theorem QueueHolds.puts (h : QueueHolds len l rs (vs.map putInput ++ rest) s)
    (hroom : l.length + vs.length ≤ len - 1) :
    ∃ t, runSteps vs.length s = .next t ∧
      QueueHolds len (l ++ vs) (List.replicate vs.length okResponse ++ rs) rest t := by
  induction vs generalizing l rs s with
  | nil => exact ⟨s, runSteps_zero s, by simpa using h⟩
  | cons v vs ih =>
    rw [List.length_cons] at hroom
    obtain ⟨u, hstep, hu⟩ := h.put (by omega)
    obtain ⟨t, hrun, ht⟩ := ih hu (by rw [List.length_append, List.length_singleton]; omega)
    refine ⟨t, (runSteps_next _ hstep).trans hrun, ?_⟩
    simpa [List.replicate_succ'] using ht

/-- The gets take the bytes from the oldest on, so the latest response is that of the newest byte. -/
theorem QueueHolds.gets (h : QueueHolds len (vs ++ l) rs (List.replicate vs.length getInput ++ rest) s) :
    ∃ t, runSteps vs.length s = .next t ∧ QueueHolds len l ((vs.map byteResponse).reverse ++ rs) rest t := by
  induction vs generalizing rs s with
  | nil => exact ⟨s, runSteps_zero s, h⟩
  | cons v vs ih =>
    obtain ⟨u, hstep, hu⟩ := h.get
    obtain ⟨t, hrun, ht⟩ := ih hu
    refine ⟨t, (runSteps_next _ hstep).trans hrun, ?_⟩
    simpa using ht

end

/-! ### The obligations -/

/-- Settles O58: the puts fill the QUEUE, and the next finds it full. -/
theorem emptyQueueAcceptsLengthMinusOne : Obligations.EmptyQueueAcceptsLengthMinusOne := by
  intro s vs v rest hs hr hv hempty hlen hpending
  have h := QueueHolds.of_empty hs hr hv hempty
  rw [hpending] at h
  obtain ⟨u, hrun, hu⟩ := h.puts (Nat.le_of_eq ((Nat.zero_add _).trans hlen))
  obtain ⟨t, hstep, ht⟩ := hu.put_full hlen
  exact ⟨t, (runSteps_add 1 hrun).trans ((runSteps_one u).trans hstep), ht.responses, ht.pending⟩

/-- Settles O59: the puts append the bytes to an empty list, the gets take them from its front, and the next finds it
empty. -/
theorem getsReturnPutsInOrder : Obligations.GetsReturnPutsInOrder := by
  intro s vs rest hs hr hv hempty hroom hpending
  have h := QueueHolds.of_empty hs hr hv hempty
  rw [hpending, List.replicate_succ', List.append_assoc, List.append_assoc] at h
  obtain ⟨u, hputs, hu⟩ := h.puts (by rwa [List.length_nil, Nat.zero_add])
  rw [List.nil_append] at hu
  obtain ⟨w, hgets, hw⟩ := QueueHolds.gets (vs := vs) (l := []) (by rw [List.append_nil]; exact hu)
  obtain ⟨t, hstep, ht⟩ := hw.get_empty
  refine ⟨t, ?_, by rw [ht.responses, List.append_assoc], (queueContents_eq_nil_iff ht.inv ht.valid).1 ht.contents,
    ht.pending⟩
  rw [Nat.two_mul, Nat.add_assoc, runSteps_add _ hputs, runSteps_add _ hgets, runSteps_one, hstep]

end Sys2Proof.Machine

/-! ## The INTERP commands (42_interpreter.md R160 to R191) -/

namespace Sys2Proof.Machine

/-! ### The fetch of INTERP_GET_NEXT_BYTECODE -/

section
variable {s : State}

theorem getNextBytecodeBody_ends
    (h : s.interp.byteCodePtr = s.interp.byteCodeEnd ∨ memRead s s.interp.byteCodePtr = 0x00#8) :
    getNextBytecodeBody s =
      .next (respond (failResponse .endOfProgram s.config.interpCode.endOfProgram) (stopInterp s)) := by
  rcases fetchCore_cases s with ⟨-, e⟩ | ⟨hp, hz, -⟩
  · rw [getNextBytecodeBody, e]; rfl
  · exact absurd h (not_or.2 ⟨hp, hz⟩)

theorem getNextBytecodeBody_fetches (hp : s.interp.byteCodePtr ≠ s.interp.byteCodeEnd)
    (hz : memRead s s.interp.byteCodePtr ≠ 0x00#8) :
    getNextBytecodeBody s = .next (respond (byteResponse (memRead s s.interp.byteCodePtr)) (advance s)) := by
  rcases fetchCore_cases s with ⟨h, -⟩ | ⟨-, -, e⟩
  · exact absurd h (not_or.2 ⟨hp, hz⟩)
  · rw [getNextBytecodeBody, e]; rfl

end

/-! ### LB inside exec, by its operand and the STACK (R205, R206) -/

/-- An operand that ends the program is not one to push. -/
theorem not_pushesOperand_of_ends {c : Config} {imm8 : Option Byte}
    (h : imm8 = none ∨ (imm8 = some 0x00#8 ∧ c.lbZeroOperand = .terminates)) : ¬ pushesOperand c imm8 := by
  rintro ⟨v, rfl, hz⟩
  rcases h with h | ⟨h, hc⟩
  · cases h
  · cases h
    rw [hc] at hz
    exact hz.elim (absurd rfl) LbZeroOperand.noConfusion

section
variable {s : State}

theorem execCore_lb_ends {imm8 : Option Byte}
    (h : imm8 = none ∨ (imm8 = some 0x00#8 ∧ s.config.lbZeroOperand = .terminates)) :
    execCore (lbBody imm8) s = .ok (.endOfProgram, stopInterp s) := by
  rcases execCore_lb_cases imm8 s with ⟨-, e⟩ | ⟨v, hv, hz, -⟩
  · exact e
  · exact absurd ⟨v, hv, hz⟩ (not_pushesOperand_of_ends h)

section
variable {v : Byte} (hz : v ≠ 0x00#8 ∨ s.config.lbZeroOperand = .pushesZero)
include hz

/-- LB with an operand to push: the STACK decides. -/
theorem execCore_lb_operand_cases :
    (s.stack.valid = false ∧ execCore (lbBody (some v)) s = .error (.uninitialized .stack)) ∨
    (s.stack.valid = true ∧ s.stack.top = s.stack.topSentinel ∧
      execCore (lbBody (some v)) s
        = .ok (.stackOverflow, setIState (afterExecErrorState s.config.afterExecError) (advance s))) ∨
    (s.stack.valid = true ∧ s.stack.top ≠ s.stack.topSentinel ∧
      execCore (lbBody (some v)) s
        = .ok (.ok, setIState .running (setTop (s.stack.top + 1) (memWrite s.stack.top v (advance s))))) := by
  rcases execCore_lb_cases (some v) s with ⟨h, -⟩ | ⟨w, hw, -, h⟩
  · exact absurd ⟨v, rfl, hz⟩ (not_pushesOperand_of_ends h)
  · obtain rfl := Option.some.inj hw
    exact h

theorem execCore_lb_uninitialized (hv : s.stack.valid = false) :
    execCore (lbBody (some v)) s = .error (.uninitialized .stack) := by
  rcases execCore_lb_operand_cases hz with ⟨-, e⟩ | ⟨hv', -⟩ | ⟨hv', -⟩
  · exact e
  all_goals exact absurd hv' (ne_true_of_eq_false hv)

theorem execCore_lb_full (hv : s.stack.valid = true) (ht : s.stack.top = s.stack.topSentinel) :
    execCore (lbBody (some v)) s
      = .ok (.stackOverflow, setIState (afterExecErrorState s.config.afterExecError) (advance s)) := by
  rcases execCore_lb_operand_cases hz with ⟨hv', -⟩ | ⟨-, -, e⟩ | ⟨-, ht', -⟩
  · exact absurd hv (ne_true_of_eq_false hv')
  · exact e
  · exact absurd ht ht'

theorem execCore_lb_room (hv : s.stack.valid = true) (ht : s.stack.top ≠ s.stack.topSentinel) :
    execCore (lbBody (some v)) s
      = .ok (.ok, setIState .running (setTop (s.stack.top + 1) (memWrite s.stack.top v (advance s)))) := by
  rcases execCore_lb_operand_cases hz with ⟨hv', -⟩ | ⟨-, ht', -⟩ | ⟨-, -, e⟩
  · exact absurd hv (ne_true_of_eq_false hv')
  · exact absurd ht' ht
  · exact e

end
end

/-! ### INTERP_EXEC, by what the instruction's body gives (R170) -/

theorem execCore_dispatch_lb (s : State) :
    execCore (dispatchBody 0x09#8) s = execCore (lbBody (byteAtCursor s)) s := rfl

section
variable {op : Byte} {s t : State} (hv : s.interp.valid = true) (hs : s.interp.state ≠ .stopped)
include hv hs

theorem exec_interpExec_ok (h : execCore (dispatchBody op) s = .ok (.ok, t)) :
    exec (.interpExec true op) s = .next (respond okResponse t) := by
  refine (activeCommand_active _ hv hs).trans ?_
  rw [interpExecBody, h]; rfl

theorem exec_interpExec_fails {k : Kind} (hk : k ≠ .ok) (h : execCore (dispatchBody op) s = .ok (k, t)) :
    exec (.interpExec true op) s = .next (respond (failResponse k (interpCode t.config.interpCode k)) t) := by
  refine (activeCommand_active _ hv hs).trans ?_
  rw [interpExecBody, h]
  cases k with
  | ok => exact absurd rfl hk
  | _ => rfl

theorem exec_interpExec_fault {f : Fault} (h : execCore (dispatchBody op) s = .error f) :
    exec (.interpExec true op) s = .fault f := by
  refine (activeCommand_active _ hv hs).trans ?_
  rw [interpExecBody, h]

end

/-! ### The exhausted fetch of a run, the start of a run, and the accessor of the state -/

section
variable {s : State}

theorem fetchInstr_of_exhausted (hp : s.interp.byteCodePtr = s.interp.byteCodeEnd) : fetchInstr s = none := by
  rcases fetchInstr_cases s with ⟨-, e⟩ | ⟨hne, -⟩ | ⟨hne, -⟩ | ⟨hne, -⟩ | ⟨hne, -⟩
  · exact e
  all_goals exact absurd hp hne

theorem exec_interpRun (record : Bool) (s : State) :
    exec (.interpRun record) s = activeCommand record (fun s => .next { s with runActive := true }) s := rfl

theorem exec_interpGetState_of_state {x : IState} (hv : s.interp.valid = true) (hx : s.interp.state = x) :
    exec (.interpGetState true) s = .next (respond (byteResponse (x.bits.setWidth 8)) s) := by
  subst hx
  exact interpCommand_valid _ hv

end

/-! ### Leaving the state Stopped (R161) -/

/-- Of the commands only a successful INTERP_INIT leaves the state Stopped. -/
theorem Effect.interpInit_of_leaves_stopped {i : Instr} {s t : State} (h : Effect i s t) (hi : isIl i = false)
    (hs : s.interp.state = .stopped) (ht : t.interp.state ≠ .stopped) :
    ∃ a0 a1, i = .interpInit true true true a0 a1 ∧ a0 < a1 ∧ t.interp.state = .running ∧
      t.interp.byteCodePtr = a0 := by
  cases h with
  | interpInit hlt => exact ⟨_, _, rfl, hlt, rfl, rfl⟩
  | fetchEnds _ hne | fetches _ hne | execNo _ hne | execUndefined _ _ hne | execLbOk _ hne
  | execLbFails _ _ _ hne | runStarts _ hne => exact absurd hs hne
  | terminator | no | undefined | lbOk | lbEnds | lbOverflows => cases hi
  | _ => exact absurd hs ht

/-! ### The obligations -/

/-- Settles O39: no run is in progress in the state Stopped, the host's writes leave INTERP and the reset input stops
it, so the step takes a command. -/
theorem onlyInterpInitLeavesStopped : Obligations.OnlyInterpInitLeavesStopped := by
  intro s t hinv hstep hs ht
  cases step_effect hstep with
  | exhausts hr | fetched _ _ hr => exact absurd hs (hinv.run hr).2
  | waits | poked => exact absurd hs ht
  | wasReset => exact absurd rfl ht
  | command p rest hr hp he =>
    obtain ⟨a0, a1, hi, h⟩ := he.interpInit_of_leaves_stopped (decodeCommand_not_il _ p) hs ht
    exact ⟨p, a0, a1, nextInput_of_pending hr hp, hi, h⟩

/-- Settles O13: the opcode fetch finds no instruction. -/
theorem stepEndsTheRunAtExhaustion : Obligations.StepEndsTheRunAtExhaustion :=
  fun _ hr hp => step_of_exhausted hr (fetchInstr_of_exhausted hp)

/-- Settles O23: the null tests, then the test of the bounds. -/
theorem interpInitBindsItsRegion : Obligations.InterpInitBindsItsRegion :=
  ⟨fun _ => decodePort_of_cmd, fun _ _ _ _ _ _ => ⟨fun hnull => if_pos hnull, fun hle => if_pos hle,
    fun hlt => if_neg (Nat.not_le_of_lt hlt)⟩⟩

/-- Settles O24: the checks of a command that fetches, then the fetch at the end of the program and before it. -/
theorem getNextBytecodeFetches : Obligations.GetNextBytecodeFetches :=
  ⟨fun _ => decodePort_of_cmd, fun _ => ⟨rfl, activeCommand_invalid _, activeCommand_stopped _, fun hv hs =>
    ⟨fun hend => (activeCommand_active _ hv hs).trans (getNextBytecodeBody_ends hend),
      fun hp hz => (activeCommand_active _ hv hs).trans (getNextBytecodeBody_fetches hp hz)⟩⟩⟩

/-- Settles O26: the operand is the byte at the cursor; without one to push the program ends, else the STACK decides. -/
theorem execOfLbPushesTheByteAtTheCursor : Obligations.ExecOfLbPushesTheByteAtTheCursor := by
  intro s hv hs
  refine ⟨fun hend => ?_, fun hp hz => ?_⟩
  · refine exec_interpExec_fails hv hs (k := .endOfProgram) Kind.noConfusion
      ((execCore_dispatch_lb s).trans (execCore_lb_ends ?_))
    rcases byteAtCursor_cases s with ⟨-, hb⟩ | ⟨hp, hb⟩
    · exact .inl hb
    · obtain ⟨hz, hc⟩ := hend.resolve_left hp
      exact .inr ⟨hz ▸ hb, hc⟩
  · have hlb : execCore (dispatchBody 0x09#8) s = execCore (lbBody (some (memRead s s.interp.byteCodePtr))) s :=
      byteAtCursor_of_ne_end hp ▸ execCore_dispatch_lb s
    refine ⟨fun hstack => ?_, fun hstack hfull => ?_, fun hstack hroom => ?_⟩
    · exact exec_interpExec_fault hv hs (hlb.trans (execCore_lb_uninitialized hz hstack))
    · exact exec_interpExec_fails hv hs (k := .stackOverflow) Kind.noConfusion
        (hlb.trans (execCore_lb_full hz hstack hfull))
    · exact exec_interpExec_ok hv hs (hlb.trans (execCore_lb_room hz hstack hroom))

/-- Settles O27: the checks of a command that executes, then the start. -/
theorem interpRunStarts : Obligations.InterpRunStarts :=
  ⟨fun _ => decodePort_of_cmd, fun s => ⟨rfl,
    fun hv => (exec_interpRun true s).trans (activeCommand_invalid _ hv),
    fun hv hs => (exec_interpRun true s).trans (activeCommand_stopped _ hv hs),
    fun hv hs => (exec_interpRun true s).trans (activeCommand_active _ hv hs)⟩⟩

/-- Settles O28: the three commands share their checks. -/
theorem stoppedRefusesFetchExecAndRun : Obligations.StoppedRefusesFetchExecAndRun := by
  rintro s hv hs i (rfl | ⟨op, rfl⟩ | rfl)
  · exact activeCommand_stopped _ hv hs
  · exact activeCommand_stopped _ hv hs
  · exact (exec_interpRun true s).trans (activeCommand_stopped _ hv hs)

/-- Settles O29: each accessor is the checks of an INTERP command around the return of a register. -/
theorem interpAccessorsReturnStateAndCursor : Obligations.InterpAccessorsReturnStateAndCursor :=
  ⟨fun _ => ⟨decodePort_of_cmd, decodePort_of_cmd⟩, fun _ => ⟨rfl, rfl,
    fun hv => ⟨interpCommand_invalid _ hv, interpCommand_invalid _ hv⟩,
    fun hv => ⟨interpCommand_valid _ hv, exec_interpGetState_of_state hv, exec_interpGetState_of_state hv,
      exec_interpGetState_of_state hv⟩⟩⟩

end Sys2Proof.Machine

/-! ## How an INTERP_RUN ends (42_interpreter.md R180, R183, R184) -/

namespace Sys2Proof.Machine

/-! ### One iteration of the loop of R180 -/

/-- The iterations after which the loop goes on: NO, and LB with its push. -/
inductive RunGoesOn (s : State) : State → Prop where
  | no (hp : s.interp.byteCodePtr ≠ s.interp.byteCodeEnd) : RunGoesOn s (setIState .running (advance s))
  | lb {t : State} (hp : s.interp.byteCodePtr ≠ s.interp.byteCodeEnd)
      (h : LbEffect (byteAtCursor (advance s)) (advance s) .ok t) : RunGoesOn s t

/-- The iterations that end the loop, with the kind that the run completes with: the end of the program at the opcode
or at the operand of LB, a full STACK, and an undefined opcode. -/
inductive RunEnds (s : State) : Kind → State → Prop where
  | atOpcode (h : s.interp.byteCodePtr = s.interp.byteCodeEnd ∨ memRead s s.interp.byteCodePtr = 0x00#8) :
      RunEnds s .ok (stopInterp s)
  | atOperand {t : State} (h : LbEffect (byteAtCursor (advance s)) (advance s) .endOfProgram t) : RunEnds s .ok t
  | overflow {t : State} (hop : memRead s s.interp.byteCodePtr = 0x09#8)
      (h : LbEffect (byteAtCursor (advance s)) (advance s) .stackOverflow t) : RunEnds s .stackOverflow t
  | undefined (hop : isUndefinedOpcode (memRead s s.interp.byteCodePtr) = true) :
      RunEnds s .instructionNotFound (setIState (afterExecErrorState s.config.afterExecError) (advance s))

/-- An iteration goes on with the rest of the loop, ends it, or uses a STACK that was never initialised. -/
theorem runLoop_succ_cases (fuel : Nat) (s : State) :
    (∃ t, RunGoesOn s t ∧ runLoop (fuel + 1) s = runLoop fuel t) ∨
    (∃ k t, RunEnds s k t ∧ runLoop (fuel + 1) s = .ok (k, t)) ∨
    runLoop (fuel + 1) s = .error (.uninitialized .stack) := by
  rcases fetchCore_cases s with ⟨h, hf⟩ | ⟨hp, hz, hf⟩
  · exact .inr (.inl ⟨_, _, .atOpcode h, by rw [runLoop, hf]⟩)
  rcases execCore_dispatch_cases (memRead s s.interp.byteCodePtr) (advance s) with
    ⟨hop, hd⟩ | ⟨hop, hd⟩ | ⟨h8, h9, hd⟩
  · exact .inl ⟨_, .no hp, by simp only [runLoop, hf, hd, execCore_no]⟩
  · rcases execCore_lb_effect (byteAtCursor (advance s)) (advance s) with ⟨k, t, he, h⟩ | ⟨he, -⟩
    · cases h with
      | ends h => exact .inr (.inl ⟨_, _, .atOperand (.ends h), by simp only [runLoop, hf, hd, he]⟩)
      | overflows v hv hz hs ht =>
        exact .inr (.inl ⟨_, _, .overflow hop (.overflows v hv hz hs ht), by simp only [runLoop, hf, hd, he]⟩)
      | pushes v hv hz hs ht =>
        exact .inl ⟨_, .lb hp (.pushes v hv hz hs ht), by simp only [runLoop, hf, hd, he]⟩
    · exact .inr (.inr (by simp only [runLoop, hf, hd, he]))
  · exact .inr (.inl ⟨_, _, .undefined (isUndefinedOpcode_iff.2 ⟨hz, h8, h9⟩),
      by simp only [runLoop, hf, hd, execCore_undefined, advance_config]⟩)

/-! ### The loop -/

section
variable {s t : State}

theorem RunGoesOn.frame (h : RunGoesOn s t) :
    t.config = s.config ∧ t.responses = s.responses ∧ t.interp.byteCodeEnd = s.interp.byteCodeEnd := by
  cases h with
  | no => exact ⟨rfl, rfl, rfl⟩
  | lb _ h =>
    obtain ⟨-, hconfig, -, hresp, -, -, ⟨-, hend, -⟩, -⟩ := h.frame
    exact ⟨hconfig, hresp, hend⟩

/-- The cursor moves towards the end of the region and not past it (R182). -/
theorem RunGoesOn.cursor (h : RunGoesOn s t) (hle : s.interp.byteCodePtr ≤ s.interp.byteCodeEnd) :
    s.interp.byteCodePtr < t.interp.byteCodePtr ∧ t.interp.byteCodePtr ≤ s.interp.byteCodeEnd := by
  cases h with
  | no hp => exact ⟨Nat.lt_succ_self _, Nat.lt_of_le_of_ne hle hp⟩
  | lb hp h =>
    cases h with
    | pushes v hv =>
      have hoperand : s.interp.byteCodePtr + 1 ≠ s.interp.byteCodeEnd := ptr_ne_end_of_byteAtCursor hv
      exact ⟨Nat.lt_succ_of_lt (Nat.lt_succ_self _),
        Nat.lt_of_le_of_ne (Nat.lt_of_le_of_ne hle hp) hoperand⟩

/-- With the fetches that R182 allows the loop is ended by one of its iterations. -/
theorem runLoop_ends {k : Kind} (fuel : Nat) (hle : s.interp.byteCodePtr ≤ s.interp.byteCodeEnd)
    (hfuel : s.interp.byteCodeEnd - s.interp.byteCodePtr < fuel) (h : runLoop fuel s = .ok (k, t)) :
    ∃ u, RunEnds u k t ∧ u.config = s.config ∧ u.responses = s.responses := by
  induction fuel generalizing s with
  | zero => exact absurd hfuel (Nat.not_lt_zero _)
  | succ fuel ih =>
    rcases runLoop_succ_cases fuel s with ⟨u, hu, e⟩ | ⟨k', t', hend, e⟩ | e <;> rw [e] at h
    · obtain ⟨hconfig, hresp, hregion⟩ := hu.frame
      obtain ⟨hlt, hle'⟩ := hu.cursor hle
      obtain ⟨w, hw, hwc, hwr⟩ := ih (by omega) (by omega) h
      exact ⟨w, hw, hwc.trans hconfig, hwr.trans hresp⟩
    · cases h
      exact ⟨s, hend, rfl, rfl⟩
    · cases h

/-- The kind, the state and what stands at the cursor, where an iteration ends the run (R183). -/
theorem RunEnds.table {k : Kind} (h : RunEnds s k t) :
    ((endRun k t).responses = okResponse :: s.responses ∧ t.interp.state = .stopped ∧
        (t.interp.byteCodePtr = t.interp.byteCodeEnd ∨ memRead t t.interp.byteCodePtr = 0x00#8)) ∨
      ((endRun k t).responses
          = failResponse .instructionNotFound s.config.interpCode.instructionNotFound :: s.responses ∧
        t.interp.state = afterExecErrorState s.config.afterExecError ∧
        isUndefinedOpcode (memRead t (t.interp.byteCodePtr - 1)) = true) ∨
      ((endRun k t).responses = failResponse .stackOverflow s.config.interpCode.stackOverflow :: s.responses ∧
        t.interp.state = afterExecErrorState s.config.afterExecError ∧
        memRead t (t.interp.byteCodePtr - 2) = 0x09#8 ∧ t.stack.top = t.stack.topSentinel) := by
  cases h with
  | atOpcode h => exact .inl ⟨rfl, rfl, h⟩
  | atOperand h =>
    cases h with
    | ends h =>
      refine .inl ⟨rfl, rfl, ?_⟩
      rcases byteAtCursor_cases (advance s) with ⟨hp, -⟩ | ⟨-, hb⟩
      · exact .inl hp
      · rcases h with h | ⟨h, -⟩
        · rw [h] at hb; cases hb
        · exact .inr (Option.some.inj (hb.symm.trans h))
  | overflow hop h =>
    cases h with
    | overflows v hv hz hs ht => exact .inr (.inr ⟨rfl, rfl, hop, ht⟩)
  | undefined hop => exact .inr (.inl ⟨rfl, rfl, hop⟩)

end

/-- Settles O54: R182 allows the loop its fetches, so that one of its iterations ends it. -/
theorem runEndsAsTheTableSays : Obligations.RunEndsAsTheTableSays := by
  intro s t hs hr h
  obtain ⟨-, -, hle⟩ := hs.interp (hs.run hr).1
  unfold runAtomic at h
  split at h
  case h_1 => cases h
  case h_2 k u e =>
    cases h
    obtain ⟨w, hw, hconfig, hresp⟩ := runLoop_ends (runFuel s) hle (Nat.lt_succ_self _) e
    rw [← hconfig, ← hresp]
    exact ⟨rfl, hw.table⟩

end Sys2Proof.Machine

/-! ## The IL instructions in a run, and INTERP_EXEC of NO and of undefined opcodes (43_il_opcodes.md R200 to R210) -/

namespace Sys2Proof.Machine

/-! ### What an IL instruction's body gives, to the run and to INTERP_EXEC (R169, R180) -/

theorem execCore_dispatch_no (s : State) : execCore (dispatchBody 0x08#8) s = .ok (.ok, setIState .running s) := rfl

theorem execCore_dispatch_undefined {op : Byte} (s : State) (h8 : op ≠ 0x08#8) (h9 : op ≠ 0x09#8) :
    execCore (dispatchBody op) s
      = .ok (.instructionNotFound, setIState (afterExecErrorState s.config.afterExecError) s) := by
  rcases execCore_dispatch_cases op s with ⟨h, -⟩ | ⟨h, -⟩ | ⟨-, -, e⟩
  · exact absurd h h8
  · exact absurd h h9
  · exact e.trans (execCore_undefined s)

theorem exec_lb_of_execCore {imm8 : Option Byte} {s : State} {r : BodyResult} (h : execCore (lbBody imm8) s = r) :
    exec (.lb imm8) s = continueRun r := congrArg continueRun h

/-! ### The obligations -/

/-- Settles O25: the checks of a command that executes, then what the dispatch of the opcode gives. -/
theorem execOfNoAndOfUndefinedOpcodes : Obligations.ExecOfNoAndOfUndefinedOpcodes := by
  refine ⟨fun _ => decodePort_of_cmd, fun s op => ⟨rfl, activeCommand_invalid _, activeCommand_stopped _, ?_, ?_⟩⟩
  · rintro hv hs rfl
    exact exec_interpExec_ok hv hs (execCore_dispatch_no s)
  · intro hv hs h8 h9
    exact exec_interpExec_fails hv hs Kind.noConfusion (execCore_dispatch_undefined s h8 h9)

/-- Settles O30: the equation of the byte code, and the empty body of NO inside exec. -/
theorem noChangesOnlyTheState : Obligations.NoChangesOnlyTheState :=
  ⟨decodeIL_no, fun s => congrArg continueRun (execCore_no s)⟩

/-- Settles O31: the equation of the byte code, and the end of the run at the opcode fetch. -/
theorem terminatorEndsTheRun : Obligations.TerminatorEndsTheRun :=
  ⟨decodeIL_terminator, fun _ => rfl⟩

/-- Settles O32: the failing body inside exec, whose kind ends the run. -/
theorem undefinedOpcodeEndsTheRun : Obligations.UndefinedOpcodeEndsTheRun :=
  fun s _ => congrArg continueRun (execCore_undefined s)

/-- Settles O33: without an operand to push the program ends, else the STACK decides. -/
theorem lbPushesItsLiteral : Obligations.LbPushesItsLiteral := by
  refine fun s imm8 => ⟨fun hend => exec_lb_of_execCore (execCore_lb_ends hend), ?_⟩
  rintro v rfl hz
  exact ⟨fun hv => exec_lb_of_execCore (execCore_lb_uninitialized hz hv),
    fun hv ht => exec_lb_of_execCore (execCore_lb_full hz hv ht),
    fun hv ht => exec_lb_of_execCore (execCore_lb_room hz hv ht)⟩

end Sys2Proof.Machine

/-! ## Faults are uses of uninitialised units (60_exceptions.md R227, R229, R231, 43_il_opcodes.md R205) -/

namespace Sys2Proof.Machine

/-! ### The checks of a command -/

section
variable {record valid : Bool} {u w : UnitName} {body : State → Result} {s : State}

theorem ne_fault_of_answers {r : Result} {f : Fault} (h : ∃ t, r = .next t) : r ≠ .fault f := by
  obtain ⟨t, rfl⟩ := h
  nofun

/-- The faults of a command: a reference to an invalid unit, and the faults of the body (R227). -/
theorem checked_fault_iff :
    checked record valid u body s = .fault (.uninitialized w) ↔
      record = true ∧ ((valid = false ∧ w = u) ∨ (valid = true ∧ body s = .fault (.uninitialized w))) := by
  rcases checked_cases record valid u body s with ⟨hr, e⟩ | ⟨hr, hv, e⟩ | ⟨hr, hv, e⟩ <;> rw [e] <;>
    simp [*, eq_comm]

/-- The faults of a command whose body answers. -/
theorem checked_fault_iff_of_answers (hb : ∃ t, body s = .next t) :
    checked record valid u body s = .fault (.uninitialized w) ↔ record = true ∧ valid = false ∧ w = u := by
  simp [checked_fault_iff, ne_fault_of_answers hb]

/-- The faults of a command that fetches or executes: in the state Stopped the body is not reached. -/
theorem activeCommand_fault_iff :
    activeCommand record body s = .fault (.uninitialized w) ↔
      record = true ∧ ((s.interp.valid = false ∧ w = .interp) ∨
        (s.interp.valid = true ∧ s.interp.state ≠ .stopped ∧ body s = .fault (.uninitialized w))) := by
  rw [activeCommand, interpCommand, checked_fault_iff]
  by_cases hs : s.interp.state = .stopped
  · simp [hs, raiseInterp, raise]
  · simp [hs]

theorem activeCommand_fault_iff_of_answers (hb : ∃ t, body s = .next t) :
    activeCommand record body s = .fault (.uninitialized w) ↔
      record = true ∧ s.interp.valid = false ∧ w = .interp := by
  simp [activeCommand_fault_iff, ne_fault_of_answers hb]

end

/-! ### The bodies that answer in every state -/

section
variable (s : State)

theorem stackPushBody_answers (v : Byte) : ∃ t, stackPushBody v s = .next t := by
  by_cases ht : s.stack.top = s.stack.topSentinel
  · exact ⟨_, stackPushBody_full v ht⟩
  · exact ⟨_, stackPushBody_room v ht⟩

theorem stackPopBody_answers : ∃ t, stackPopBody s = .next t := by
  by_cases ht : s.stack.top = s.stack.bottom
  · exact ⟨_, stackPopBody_empty ht⟩
  · exact ⟨_, stackPopBody_nonempty ht⟩

theorem queuePutBody_answers (v : Byte) : ∃ t, queuePutBody v s = .next t := by
  by_cases ht : nextQ s.queue s.queue.tail = s.queue.head
  · exact ⟨_, queuePutBody_full v ht⟩
  · exact ⟨_, queuePutBody_room v ht⟩

theorem queueGetBody_answers : ∃ t, queueGetBody s = .next t := by
  by_cases ht : s.queue.head = s.queue.tail
  · exact ⟨_, queueGetBody_empty ht⟩
  · exact ⟨_, queueGetBody_nonempty ht⟩

theorem getNextBytecodeBody_answers : ∃ t, getNextBytecodeBody s = .next t := by
  rcases fetchCore_cases s with ⟨hend, -⟩ | ⟨hp, hz, -⟩
  · exact ⟨_, getNextBytecodeBody_ends hend⟩
  · exact ⟨_, getNextBytecodeBody_fetches hp hz⟩

end

/-! ### The push of LB, in a run and in INTERP_EXEC -/

section
variable {s : State} {w : UnitName}

/-- LB uses the STACK when it has an operand to push (R205). -/
theorem execCore_lb_error_iff {imm8 : Option Byte} :
    execCore (lbBody imm8) s = .error (.uninitialized w) ↔
      pushesOperand s.config imm8 ∧ s.stack.valid = false ∧ w = .stack := by
  constructor
  · intro h
    rcases execCore_lb_effect imm8 s with ⟨k, t, e, -⟩ | ⟨e, hp, hv⟩ <;> rw [e] at h <;> cases h
    exact ⟨hp, hv, rfl⟩
  · rintro ⟨⟨v, rfl, hz⟩, hv, rfl⟩
    exact execCore_lb_uninitialized hz hv

theorem execCore_dispatch_error_iff {op : Byte} :
    execCore (dispatchBody op) s = .error (.uninitialized w) ↔
      op = 0x09#8 ∧ pushesOperand s.config (byteAtCursor s) ∧ s.stack.valid = false ∧ w = .stack := by
  rcases execCore_dispatch_cases op s with ⟨rfl, e⟩ | ⟨rfl, e⟩ | ⟨-, h9, e⟩
  · exact iff_of_false (by rw [e]; nofun) (fun h => absurd h.1 (by decide))
  · rw [e, execCore_lb_error_iff, and_iff_right rfl]
  · exact iff_of_false (by rw [e]; nofun) (fun h => h9 h.1)

theorem continueRun_fault_iff {r : BodyResult} {f : Fault} : continueRun r = .fault f ↔ r = .error f := by
  rcases r with g | ⟨k, t⟩
  · simp [continueRun]
  · cases k <;> exact iff_of_false nofun nofun

theorem interpExecBody_fault_iff {op : Byte} {f : Fault} :
    interpExecBody op s = .fault f ↔ execCore (dispatchBody op) s = .error f := by
  unfold interpExecBody
  split <;> rename_i e <;> simp [e, returnOk, raiseInterp, raise]

end

/-! ### The obligation -/

/-- The fault of an instruction, by the instruction. -/
theorem exec_fault_iff (i : Instr) (s : State) (w : UnitName) :
    exec i s = .fault (.uninitialized w) ↔ usesUninitialized i s w := by
  cases i with
  | terminator | no | undefined | reservedCommand => exact iff_of_false nofun id
  | lb imm8 => exact continueRun_fault_iff.trans execCore_lb_error_iff
  | stackInit r a0 a1 a2 =>
    exact iff_of_false (ne_fault_of_answers ((execStackInit_effect r a0 a1 a2 s).imp fun _ => And.left)) id
  | queueInit r a0 a1 =>
    exact iff_of_false (ne_fault_of_answers ((execQueueInit_effect r a0 a1 s).imp fun _ => And.left)) id
  | interpInit r sr qr a0 a1 =>
    exact iff_of_false (ne_fault_of_answers ((execInterpInit_effect r sr qr a0 a1 s).imp fun _ => And.left)) id
  | stackPush _ v => exact checked_fault_iff_of_answers (stackPushBody_answers s v)
  | stackPop => exact checked_fault_iff_of_answers (stackPopBody_answers s)
  | queuePut _ v => exact checked_fault_iff_of_answers (queuePutBody_answers s v)
  | queueGet => exact checked_fault_iff_of_answers (queueGetBody_answers s)
  | stackSize | stackGetBottom | stackGetTop | stackGetTopSentinel | queueGetStart | queueGetEnd | queueGetHead
  | queueGetLastHead | queueGetTail | interpGetState | interpGetPtr =>
    exact checked_fault_iff_of_answers ⟨_, rfl⟩
  | interpGetNextBytecode => exact activeCommand_fault_iff_of_answers (getNextBytecodeBody_answers s)
  | interpRun r =>
    rw [exec_interpRun]
    exact activeCommand_fault_iff_of_answers ⟨_, rfl⟩
  | interpExec r op =>
    refine activeCommand_fault_iff.trans ?_
    rw [interpExecBody_fault_iff, execCore_dispatch_error_iff]
    rfl

/-- Settles O43: the checks of a command fault before its body, and of the bodies only LB's can fault, at its push. -/
theorem faultsAreUsesOfUninitializedUnits : Obligations.FaultsAreUsesOfUninitializedUnits := by
  rintro i s ⟨w⟩
  exact (exec_fault_iff i s w).trans ⟨fun h => ⟨w, rfl, h⟩, fun ⟨_, rfl, h⟩ => h⟩

end Sys2Proof.Machine

/-! ## Completion, the null record reference, and the single step (60_exceptions.md R223, R227 to R231, R241) -/

namespace Sys2Proof.Machine

/-! ### What the body of an instruction gives, whatever the port and the run flag hold -/

/-- The units, MEM and parameters of `s`, with a run flag, inputs to come and responses given of their own. -/
def withPort (run : Bool) (pending : List HostInput) (responses : List Response) (s : State) : State :=
  { s with runActive := run, pending := pending, responses := responses }

section
variable {s t : State} {op : Byte} {run : Bool} {pending rest : List HostInput} {responses : List Response}

theorem execCore_lb_withPort (imm8 : Option Byte) :
    execCore (lbBody imm8) (withPort run pending responses s)
      = (execCore (lbBody imm8) s).map (Prod.map id (withPort run pending responses)) := by
  rcases execCore_lb_cases imm8 s with ⟨h, e⟩ | ⟨v, rfl, hz, ⟨hv, e⟩ | ⟨hv, ht, e⟩ | ⟨hv, ht, e⟩⟩ <;> rw [e]
  · exact execCore_lb_ends h
  · exact execCore_lb_uninitialized hz hv
  · exact execCore_lb_full hz hv ht
  · exact execCore_lb_room hz hv ht

theorem execCore_dispatch_withPort :
    execCore (dispatchBody op) (withPort run pending responses s)
      = (execCore (dispatchBody op) s).map (Prod.map id (withPort run pending responses)) := by
  by_cases h8 : op = 0x08#8
  · subst h8; rfl
  by_cases h9 : op = 0x09#8
  · subst h9
    exact execCore_lb_withPort (byteAtCursor s)
  · rw [execCore_dispatch_undefined s h8 h9]
    exact execCore_dispatch_undefined _ h8 h9

/-! ### The same body in an iteration of a run and in INTERP_EXEC (R169, R170, R180) -/

theorem continueRun_keeps_units (k : Kind) (t : State) :
    ∃ run responses, continueRun (.ok (k, t)) = .next (withPort run t.pending responses t) := by
  cases k <;> exact ⟨_, _, rfl⟩

theorem exec_interpExec_keeps_units {k : Kind} (hv : s.interp.valid = true) (hs : s.interp.state ≠ .stopped)
    (h : execCore (dispatchBody op) s = .ok (k, t)) :
    ∃ responses, exec (.interpExec true op) s = .next (withPort t.runActive t.pending responses t) := by
  by_cases hk : k = .ok
  · exact ⟨_, exec_interpExec_ok hv hs (hk ▸ h)⟩
  · exact ⟨_, exec_interpExec_fails hv hs hk h⟩

/-- An iteration of a run and INTERP_EXEC of the same byte leave the same units and MEM, and fault alike. -/
theorem iteration_agrees_with_interpExec (hv : s.interp.valid = true) (hs : s.interp.state ≠ .stopped)
    (run run' : Bool) (pending pending' : List HostInput) (responses responses' : List Response) :
    let iteration := continueRun (execCore (dispatchBody op) (withPort run pending responses s))
    let command := exec (.interpExec true op) (withPort run' pending' responses' s)
    (∀ t, iteration = .next t →
      ∃ u, command = .next u ∧ u.stack = t.stack ∧ u.queue = t.queue ∧ u.interp = t.interp ∧ u.mem = t.mem) ∧
    (∀ f, iteration = .fault f → command = .fault f) := by
  have hiteration := execCore_dispatch_withPort (s := s) (op := op) (run := run) (pending := pending)
    (responses := responses)
  have hcommand := execCore_dispatch_withPort (s := s) (op := op) (run := run') (pending := pending')
    (responses := responses')
  rw [hiteration]
  match execCore (dispatchBody op) s, hcommand with
  | .error f, hcommand =>
    refine ⟨nofun, fun g hg => ?_⟩
    cases hg
    exact exec_interpExec_fault (s := withPort run' pending' responses' s) hv hs hcommand
  | .ok (k, w), hcommand =>
    obtain ⟨_, _, hnext⟩ := continueRun_keeps_units k (withPort run pending responses w)
    obtain ⟨_, hnext'⟩ := exec_interpExec_keeps_units (s := withPort run' pending' responses' s) hv hs hcommand
    refine ⟨fun t h => ?_, fun f h => absurd h (ne_fault_of_answers ⟨_, hnext⟩)⟩
    obtain rfl := Host.Outcome.next.inj (hnext.symm.trans h)
    exact ⟨_, hnext', rfl, rfl, rfl, rfl⟩

/-! ### The byte at the cursor, executed by a run and by the two commands -/

theorem eq_memRead_of_byteAtCursor (hb : byteAtCursor s = some op) : memRead s s.interp.byteCodePtr = op :=
  Option.some.inj ((byteAtCursor_of_ne_end (ptr_ne_end_of_byteAtCursor hb)).symm.trans hb)

/-- An iteration of a run at a non-zero byte executes it past its opcode byte. -/
theorem step_of_run_of_byte (hr : s.runActive = true) (hb : byteAtCursor s = some op) (hz : op ≠ 0x00#8) :
    step s = continueRun (execCore (dispatchBody op) (advance s)) := by
  obtain rfl := eq_memRead_of_byteAtCursor hb
  rcases fetchInstr_cases s with ⟨h, -⟩ | ⟨-, h, -⟩ | ⟨-, h, e⟩ | ⟨-, h, e⟩ | ⟨-, h, e⟩
  · exact absurd h (ptr_ne_end_of_byteAtCursor hb)
  · exact absurd h hz
  · rw [step_of_fetchInstr hr e, h]; rfl
  · rw [step_of_fetchInstr hr e, h]; rfl
  · obtain ⟨-, h8, h9⟩ := isUndefinedOpcode_iff.1 h
    rw [step_of_fetchInstr hr e, execCore_dispatch_undefined _ h8 h9]; rfl

theorem exec_interpGetNextBytecode_of_byte (hv : s.interp.valid = true) (hs : s.interp.state ≠ .stopped)
    (hb : byteAtCursor s = some op) (hz : op ≠ 0x00#8) :
    exec (.interpGetNextBytecode true) s = .next (respond (byteResponse op) (advance s)) := by
  obtain rfl := eq_memRead_of_byteAtCursor hb
  exact (activeCommand_active _ hv hs).trans (getNextBytecodeBody_fetches (ptr_ne_end_of_byteAtCursor hb) hz)

theorem step_of_nextBytecodeInput (hr : s.runActive = false) (hp : s.pending = nextBytecodeInput :: rest) :
    step s = exec (.interpGetNextBytecode true) { s with pending := rest } := by
  rw [step_of_plainCommand hr hp]
  simp [decodePort, PortInput.refBit]

theorem step_of_execInput (hr : s.runActive = false) (hp : s.pending = execInput op :: rest) :
    step s = exec (.interpExec true op) { s with pending := rest } := by
  rw [step_of_plainCommand hr hp]
  simp [decodePort, PortInput.refBit]

/-- The two commands at a non-zero byte execute it past its opcode byte. -/
theorem runSteps_of_fetch_and_exec (hr : s.runActive = false) (hv : s.interp.valid = true)
    (hs : s.interp.state ≠ .stopped) (hb : byteAtCursor s = some op) (hz : op ≠ 0x00#8)
    (hp : s.pending = nextBytecodeInput :: execInput op :: rest) :
    runSteps 2 s = exec (.interpExec true op)
      (withPort s.runActive rest (byteResponse op :: s.responses) (advance s)) := by
  have hfetch := (step_of_nextBytecodeInput hr hp).trans
    (exec_interpGetNextBytecode_of_byte (s := { s with pending := execInput op :: rest }) hv hs hb hz)
  rw [runSteps_next 1 hfetch, runSteps_one]
  exact step_of_execInput hr rfl

end

/-! ### The obligations -/

/-- Settles O44: an instruction that answers no next state faults, and a fault is a use of an uninitialised unit. -/
theorem initializedUnitsAlwaysAnswer : Obligations.InitializedUnitsAlwaysAnswer := by
  intro i s huses hi
  rcases exec_outcome i s hi with ⟨t, ht, -⟩ | ⟨w, hfault⟩
  · exact ⟨t, ht⟩
  · exact absurd ((exec_fault_iff i s w).1 hfault) (huses w)

/-- Settles O55: both ways run the body of the byte past its opcode byte, from states that differ only in the run flag,
the inputs to come and the responses given, which the body does not read. -/
theorem singleStepIsOneIteration : Obligations.SingleStepIsOneIteration := by
  intro s b rest hr hv hs hb hz hp
  have hrun : step { s with runActive := true }
      = continueRun (execCore (dispatchBody b) (withPort true s.pending s.responses (advance s))) :=
    step_of_run_of_byte (s := { s with runActive := true }) rfl hb hz
  rw [hrun, runSteps_of_fetch_and_exec hr hv hs hb hz hp]
  exact iteration_agrees_with_interpExec (s := advance s) hv hs _ _ _ _ _ _

/-- Settles O45: the null test is the first test of every command, of the inits' own bodies and of the checks of the
others (R227), so that a null reference selects its branch by evaluation. -/
theorem nullReferenceDecidesFirst : Obligations.NullReferenceDecidesFirst := by
  intro i s h
  cases i with
  | terminator | no | lb | undefined | reservedCommand => cases h
  | stackInit => cases h; exact exec_stackInit_null (.inl rfl)
  | queueInit | interpInit => cases h; rfl
  | stackPush | stackPop | stackSize | stackGetBottom | stackGetTop | stackGetTopSentinel
  | queuePut | queueGet | queueGetStart | queueGetEnd | queueGetHead | queueGetLastHead | queueGetTail
  | interpGetNextBytecode | interpExec | interpRun | interpGetState | interpGetPtr => cases h; rfl

end Sys2Proof.Machine

/-! ## A run step by step and as one atomic step (70_reset_and_hazards.md R258, 42_interpreter.md R182) -/

namespace Sys2Proof.Machine

/-- The completion of an INTERP_RUN whose loop gives `r`: `runAtomic` is this of `runLoop`. -/
def completeRun : BodyResult → Result
  | .error f => .fault f
  | .ok (k, t) => .next (endRun k t)

theorem runAtomic_eq_completeRun (s : State) : runAtomic s = completeRun (runLoop (runFuel s) s) := by
  unfold runAtomic
  cases runLoop (runFuel s) s <;> rfl

section
variable {s t : State}

/-! ### One step is one iteration of the loop -/

/-- A step of a run that finds exhaustion or the terminator completes it (R165, R200). -/
theorem step_of_run_of_end (hr : s.runActive = true)
    (h : s.interp.byteCodePtr = s.interp.byteCodeEnd ∨ memRead s s.interp.byteCodePtr = 0x00#8) :
    step s = .next (endRun .ok (stopInterp s)) := by
  by_cases hp : s.interp.byteCodePtr = s.interp.byteCodeEnd
  · exact step_of_exhausted hr (fetchInstr_of_exhausted hp)
  · have hz : memRead s s.interp.byteCodePtr = 0x00#8 := h.resolve_left hp
    exact step_of_fetchInstr hr (fetchInstr_of_decodeIL (by
      rw [bytesAtCursor_of_ne_end hp, hz]; exact decodeIL_terminator _))

/-- The executions that end with OK are those after which the loop goes on. -/
theorem runGoesOn_of_execCore (hp : s.interp.byteCodePtr ≠ s.interp.byteCodeEnd)
    (h : execCore (dispatchBody (memRead s s.interp.byteCodePtr)) (advance s) = .ok (.ok, t)) : RunGoesOn s t := by
  rcases execCore_dispatch_cases (memRead s s.interp.byteCodePtr) (advance s) with ⟨-, e⟩ | ⟨-, e⟩ | ⟨-, -, e⟩
  · rw [e, execCore_no] at h
    cases h
    exact .no hp
  · rcases execCore_lb_effect (byteAtCursor (advance s)) (advance s) with ⟨k, u, he, hlb⟩ | ⟨he, -⟩
    · rw [e, he] at h
      cases h
      exact .lb hp hlb
    · rw [e, he] at h
      cases h
  · rw [e, execCore_undefined] at h
    cases h

/-- The run is still in progress after an iteration that does not end it. -/
theorem RunGoesOn.runActive_eq (h : RunGoesOn s t) : t.runActive = s.runActive := by
  cases h with
  | no => rfl
  | lb _ h =>
    obtain ⟨-, -, -, -, hrun, -⟩ := h.frame
    exact hrun

/-- A step of a run either is an iteration after which the loop goes on, or completes the run with what the loop
gives. -/
theorem step_of_run_cases (fuel : Nat) (hr : s.runActive = true) :
    (∃ t, RunGoesOn s t ∧ step s = .next t ∧ runLoop (fuel + 1) s = runLoop fuel t) ∨
    step s = completeRun (runLoop (fuel + 1) s) := by
  rcases fetchCore_cases s with ⟨hend, hf⟩ | ⟨hp, hz, hf⟩
  · exact .inr ((step_of_run_of_end hr hend).trans (by rw [runLoop, hf]; rfl))
  · have hstep := step_of_run_of_byte hr (byteAtCursor_of_ne_end hp) hz
    match hd : execCore (dispatchBody (memRead s s.interp.byteCodePtr)) (advance s) with
    | .error f => exact .inr (by simp only [hstep, runLoop, hf, hd]; rfl)
    | .ok (k, t) =>
      by_cases hk : k = .ok
      · subst hk
        exact .inl ⟨t, runGoesOn_of_execCore hp hd, by rw [hstep, hd]; rfl, by simp only [runLoop, hf, hd]⟩
      · refine .inr ?_
        simp only [hstep, runLoop, hf, hd]
        cases k with
        | ok => exact absurd rfl hk
        | _ => rfl

/-! ### The steps of a run -/

/-- With the fetches that R182 allows, as many steps reach what the loop gives. -/
theorem runSteps_eq_completeRun (fuel : Nat) (hr : s.runActive = true)
    (hle : s.interp.byteCodePtr ≤ s.interp.byteCodeEnd)
    (hfuel : s.interp.byteCodeEnd - s.interp.byteCodePtr < fuel) :
    ∃ k ≤ fuel, runSteps k s = completeRun (runLoop fuel s) := by
  induction fuel generalizing s with
  | zero => exact absurd hfuel (Nat.not_lt_zero _)
  | succ fuel ih =>
    rcases step_of_run_cases fuel hr with ⟨t, hgoes, hstep, hloop⟩ | hstep
    · obtain ⟨-, -, hregion⟩ := hgoes.frame
      obtain ⟨hlt, hle'⟩ := hgoes.cursor hle
      obtain ⟨k, hk, hrun⟩ := ih (hgoes.runActive_eq.trans hr) (by omega) (by omega)
      exact ⟨k + 1, Nat.succ_le_succ hk, by rw [runSteps_next k hstep, hrun, hloop]⟩
    · exact ⟨1, Nat.le_add_left 1 fuel, (runSteps_one s).trans hstep⟩

end

/-- Settles O53: each step is one iteration of the loop of R180, which moves the cursor towards the end of the region,
so that the fetches of R182 are enough for both. -/
theorem stepsOfARunGiveItsAtomicResult : Obligations.StepsOfARunGiveItsAtomicResult := by
  intro s hs hr
  obtain ⟨-, -, hle⟩ := hs.interp (hs.run hr).1
  rw [runAtomic_eq_completeRun]
  exact runSteps_eq_completeRun (runFuel s) hr hle (Nat.lt_succ_self _)

end Sys2Proof.Machine

/-! ## The boot order (70_reset_and_hazards.md R252 to R254) -/

namespace Sys2Proof.Machine

/-! ### Bytes placed in MEM one after another -/

/-- The memory after the bytes of a list are written from the address `a` on (R252 step 1). -/
def Memory.place (m : Memory) (a : Nat) : List Byte → Memory
  | [] => m
  | v :: l => Memory.place (Memory.write m a v) (a + 1) l

section
variable {aw a b : Nat} {l : List Byte} {m : Memory}

theorem Memory.read_place_outside (hm : Memory.wf aw m = true) (hfit : a + l.length ≤ 2 ^ aw)
    (hb : b < a ∨ a + l.length ≤ b) : Memory.read (Memory.place m a l) b = Memory.read m b := by
  induction l generalizing m a with
  | nil => rfl
  | cons v l ih =>
    rw [List.length_cons] at hfit hb
    calc Memory.read (Memory.place (Memory.write m a v) (a + 1) l) b
        = Memory.read (Memory.write m a v) b := ih (Memory.wf_write hm (by omega)) (by omega) (by omega)
      _ = Memory.read m b := (Memory.read_write hm).trans (if_neg (by omega))

theorem Memory.read_place_inside (hm : Memory.wf aw m = true) (hfit : a + l.length ≤ 2 ^ aw) (i : Nat)
    (hi : i < l.length) : Memory.read (Memory.place m a l) (a + i) = l[i] := by
  induction l generalizing m a i with
  | nil => exact absurd hi (Nat.not_lt_zero i)
  | cons v l ih =>
    rw [List.length_cons] at hfit hi
    have hm' : Memory.wf aw (Memory.write m a v) = true := Memory.wf_write hm (by omega)
    cases i with
    | zero =>
      calc Memory.read (Memory.place (Memory.write m a v) (a + 1) l) a
          = Memory.read (Memory.write m a v) a := Memory.read_place_outside hm' (by omega) (by omega)
        _ = v := (Memory.read_write hm).trans (if_pos rfl)
    | succ i =>
      rw [← Nat.succ_add_eq_add_succ]
      exact ih hm' (by omega) i (by omega)

theorem Memory.map_read_place (hm : Memory.wf aw m = true) (hfit : a + l.length ≤ 2 ^ aw) :
    (List.range l.length).map (fun i => Memory.read (Memory.place m a l) (a + i)) = l := by
  refine List.ext_getElem (by simp) fun i hi hil => ?_
  rw [List.getElem_map, List.getElem_range]
  exact Memory.read_place_inside hm hfit i hil

end

section
variable {s : State} {rest : List HostInput}

/-! ### The host's writes -/

/-- The host's writes of the bytes of a list take one step each and change MEM alone. -/
theorem runSteps_placeInputs {a : Nat} {l : List Byte} (hr : s.runActive = false)
    (hfit : a + l.length ≤ 2 ^ s.config.addrWidth) (hp : s.pending = placeInputs a l ++ rest) :
    runSteps l.length s = .next { s with mem := Memory.place s.mem a l, pending := rest } := by
  induction l generalizing s a with
  | nil =>
    obtain rfl : s.pending = rest := hp
    exact runSteps_zero s
  | cons v l ih =>
    rw [List.length_cons] at hfit
    have hstep : step s =
        .next { s with mem := Memory.write s.mem a v, pending := placeInputs (a + 1) l ++ rest } := by
      rw [step_of_poke hr hp, hostPoke, narrowAddr_of_lt (show a < 2 ^ s.config.addrWidth by omega)]; rfl
    rw [List.length_cons, runSteps_next _ hstep]
    exact ih (s := { s with mem := Memory.write s.mem a v, pending := _ }) hr (by simp only; omega) rfl

/-! ### The three init commands -/

/-- A command whose addresses have the port's width is taken as it stands (R80). -/
theorem step_of_command_of_lt {p : PortInput} {i : Instr} (hr : s.runActive = false)
    (hp : s.pending = .command p :: rest) (hi : decodePort p = i) (h0 : p.a0 < 2 ^ s.config.addrWidth)
    (h1 : p.a1 < 2 ^ s.config.addrWidth) (h2 : p.a2 < 2 ^ s.config.addrWidth) :
    step s = exec i { s with pending := rest } := by
  obtain ⟨-, hfits⟩ := stepRunsTheNextCommand s p rest hr hp
  rw [hfits (by simp only [PortInput.fits, h0, h1, h2, decide_true, Bool.and_self]), hi]

/-- The step of an accepted STACK_INIT (R100). -/
theorem step_of_stackInit {data sentinel bottom : Nat} (hr : s.runActive = false)
    (hp : s.pending = .command { cmd := 0x00#8, ref := 1, a0 := data, a1 := sentinel, a2 := bottom, d := 0 } :: rest)
    (hdata : data ≠ 0) (hbottom : bottom ≠ 0) (hlt : bottom < sentinel) (hdataw : data < 2 ^ s.config.addrWidth)
    (hsentinel : sentinel < 2 ^ s.config.addrWidth) :
    step s = .next { s with
      stack := { data := data, bottom := bottom, topSentinel := sentinel, top := bottom, valid := true }
      responses := okResponse :: s.responses, pending := rest } := by
  obtain ⟨-, hinit⟩ := stackInitBindsItsRegion
  obtain ⟨-, -, haccepted⟩ := hinit { s with pending := rest } true data sentinel bottom
  have hstep : step s = exec (.stackInit true data sentinel bottom) { s with pending := rest } :=
    step_of_command_of_lt hr hp (by simp [decodePort, PortInput.refBit]) hdataw hsentinel (Nat.lt_trans hlt hsentinel)
  exact hstep.trans (haccepted rfl hdata (Nat.ne_zero_of_lt hlt) hbottom hlt)

/-- The step of an accepted QUEUE_INIT (R130). -/
theorem step_of_queueInit {start stop : Nat} (hr : s.runActive = false)
    (hp : s.pending = .command { cmd := 0x40#8, ref := 1, a0 := start, a1 := stop, a2 := 0, d := 0 } :: rest)
    (hle : start ≤ stop) (hstop : stop < 2 ^ s.config.addrWidth) :
    step s = .next { s with
      queue := { start := start, stop := stop, head := start, tail := start, lastHead := start, valid := true }
      responses := okResponse :: s.responses, pending := rest } := by
  obtain ⟨-, hinit⟩ := queueInitBindsItsRegion
  obtain ⟨-, -, haccepted⟩ := hinit { s with pending := rest } start stop
  have hstep : step s = exec (.queueInit true start stop) { s with pending := rest } :=
    step_of_command_of_lt hr hp (by simp [decodePort, PortInput.refBit]) (Nat.lt_of_le_of_lt hle hstop) hstop
      (Nat.two_pow_pos _)
  exact hstep.trans (haccepted hle)

/-- The step of an accepted INTERP_INIT (R160). -/
theorem step_of_interpInit {code codeEnd : Nat} (hr : s.runActive = false)
    (hp : s.pending = .command { cmd := 0x80#8, ref := 7, a0 := code, a1 := codeEnd, a2 := 0, d := 0 } :: rest)
    (hlt : code < codeEnd) (hend : codeEnd < 2 ^ s.config.addrWidth) :
    step s = .next { s with
      interp := { byteCode := code, byteCodeEnd := codeEnd, byteCodePtr := code, state := .running, valid := true }
      responses := okResponse :: s.responses, pending := rest } := by
  obtain ⟨-, hinit⟩ := interpInitBindsItsRegion
  obtain ⟨-, -, haccepted⟩ := hinit { s with pending := rest } true true true code codeEnd
  have hstep : step s = exec (.interpInit true true true code codeEnd) { s with pending := rest } :=
    step_of_command_of_lt hr hp (by simp [decodePort, PortInput.refBit]) (Nat.lt_trans hlt hend) hend
      (Nat.two_pow_pos _)
  exact hstep.trans (haccepted hlt)

end

/-! ### The state after the boot order -/

/-- The state that the boot order of R252 reaches from `s`, with the inputs `rest` still to come. -/
def booted (prog : List Byte) (data bottom sentinel start stop code : Nat) (rest : List HostInput) (s : State) :
    State :=
  { s with
    stack := { data := data, bottom := bottom, topSentinel := sentinel, top := bottom, valid := true }
    queue := { start := start, stop := stop, head := start, tail := start, lastHead := start, valid := true }
    interp :=
      { byteCode := code, byteCodeEnd := code + prog.length, byteCodePtr := code, state := .running, valid := true }
    mem := Memory.place s.mem code prog
    pending := rest
    responses := okResponse :: okResponse :: okResponse :: s.responses }

section
variable {prog : List Byte} {data bottom sentinel start stop code : Nat} {rest : List HostInput} {s : State}

theorem stackContents_booted : stackContents (booted prog data bottom sentinel start stop code rest s) = [] :=
  List.eq_nil_of_length_eq_zero ((stackContents_length _).trans (Nat.sub_self bottom))

theorem programBytes_booted (hm : Memory.wf s.config.addrWidth s.mem = true)
    (hfit : code + prog.length ≤ 2 ^ s.config.addrWidth) :
    programBytes (booted prog data bottom sentinel start stop code rest s) = prog := by
  simp only [programBytes, booted, Nat.add_sub_cancel_left]
  exact Memory.map_read_place hm hfit

end

/-! ### The obligation -/

/-- Settles O60: the host's writes place the bytes and each init command binds its region. -/
theorem bootOrderReachesACleanLaunch : Obligations.BootOrderReachesACleanLaunch := by
  intro s prog data bottom sentinel start stop code rest hs hr hprog hdata hbottom hstack hqueue hdataw hsentinel hstop
    hend hdisjoint hp
  have hcode : code < code + prog.length := Nat.lt_add_of_pos_right (List.length_pos_iff.2 hprog)
  have hplaced := runSteps_placeInputs hr (Nat.le_of_lt hend) hp
  have hinits : runSteps (prog.length + 3) s = .next (booted prog data bottom sentinel start stop code rest s) :=
    Eq.trans (runSteps_add 3 hplaced) <|
    Eq.trans (runSteps_next 2 (step_of_stackInit hr rfl hdata hbottom hstack hdataw hsentinel)) <|
    Eq.trans (runSteps_next 1 (step_of_queueInit hr rfl hqueue hstop)) <|
    runSteps_next 0 (step_of_interpInit hr rfl hcode hend)
  have hclean : cleanLaunch prog [] (booted prog data bottom sentinel start stop code rest s) :=
    ⟨rfl, rfl, rfl, rfl, rfl, stackContents_booted, hdisjoint, programBytes_booted hs.mem (Nat.le_of_lt hend)⟩
  exact ⟨_, hinits, hclean, rfl, rfl, rfl, rfl, rfl, rfl, rfl, rfl,
    fun _ => Memory.read_place_outside hs.mem (Nat.le_of_lt hend), rfl⟩

end Sys2Proof.Machine
